-- ==== Sys2Proof/Word.lean ====
section
/-! DEFINITION. The machine word and the other bit-vector widths of the engine (spec/00_scope.md rules R6, R7).
`u(v)` of rule R7 is `BitVec.toNat`, `s(v)` is `BitVec.toInt`; `+` and `-` on words are modulo 2^32. -/

namespace Sys2Proof

/-- XLEN = 32: a register, an address, the program counter, an instruction word (R6, R20, R24, R70). -/
abbrev Word := BitVec 32

/-- The addressable unit of the data memory (R40, R41). -/
abbrev Byte := BitVec 8

/-- A register index: the 5-bit field rd, rs1 or rs2; every one of its 32 values names a register (R20, R84). -/
abbrev RegIdx := BitVec 5

end Sys2Proof
end

