-- ==== Sys2Proof/WellFormed.lean ====
section
/-! DEFINITION. When an instruction term stands for a word. Every operand but two kinds has exactly the width of its field
and every value of it is legal (spec/30_encoding.md rule R96); a branch displacement and a JAL displacement must be even,
their bit 0 not being encoded (rules R75, R77, R81, R83). A displacement that is even and no multiple of 4 is well formed:
it decodes normally and raises when executed (R96). -/

namespace Sys2Proof

/-- Bit 0 of a displacement is 0, as rules R81 and R83 reconstruct it. -/
def evenDisplacement {n : Nat} (imm : BitVec n) : Bool := !imm.getLsbD 0

def Instr.wellFormed : Instr → Bool
  | .add _ _ _ => true
  | .sub _ _ _ => true
  | .sll _ _ _ => true
  | .slt _ _ _ => true
  | .sltu _ _ _ => true
  | .xor _ _ _ => true
  | .srl _ _ _ => true
  | .sra _ _ _ => true
  | .or _ _ _ => true
  | .and _ _ _ => true
  | .mul _ _ _ => true
  | .mulh _ _ _ => true
  | .mulhsu _ _ _ => true
  | .mulhu _ _ _ => true
  | .div _ _ _ => true
  | .divu _ _ _ => true
  | .rem _ _ _ => true
  | .remu _ _ _ => true
  | .addi _ _ _ => true
  | .slti _ _ _ => true
  | .sltiu _ _ _ => true
  | .xori _ _ _ => true
  | .ori _ _ _ => true
  | .andi _ _ _ => true
  | .slli _ _ _ => true
  | .srli _ _ _ => true
  | .srai _ _ _ => true
  | .lb _ _ _ => true
  | .lh _ _ _ => true
  | .lw _ _ _ => true
  | .lbu _ _ _ => true
  | .lhu _ _ _ => true
  | .sb _ _ _ => true
  | .sh _ _ _ => true
  | .sw _ _ _ => true
  | .beq _ _ imm => evenDisplacement imm
  | .bne _ _ imm => evenDisplacement imm
  | .blt _ _ imm => evenDisplacement imm
  | .bge _ _ imm => evenDisplacement imm
  | .bltu _ _ imm => evenDisplacement imm
  | .bgeu _ _ imm => evenDisplacement imm
  | .jal _ imm => evenDisplacement imm
  | .jalr _ _ _ => true
  | .lui _ _ => true
  | .auipc _ _ => true

end Sys2Proof
end

