-- ==== Sys2Proof/Decode.lean ====
section
/-! DEFINITION. The decoder and the encoder of spec/30_encoding.md: the field positions (R71-R77), the immediates as the word
holds them (R78-R83), the opcode map (R86-R92), the decoder of rule R93, total on every 32-bit word, and after it the encoder
written from the same format layouts. An instruction is one 32-bit word and the instruction stream is a sequence of words
(R28, R70), so the decoder reads a word and no byte order applies to it (R47). -/

namespace Sys2Proof

/-! ## Fields of a word (R71) -/

def opcodeField (w : Word) : BitVec 7 := w.extractLsb' 0 7
def rdField (w : Word) : RegIdx := w.extractLsb' 7 5
def funct3Field (w : Word) : BitVec 3 := w.extractLsb' 12 3
def rs1Field (w : Word) : RegIdx := w.extractLsb' 15 5
def rs2Field (w : Word) : RegIdx := w.extractLsb' 20 5
def funct7Field (w : Word) : BitVec 7 := w.extractLsb' 25 7

/-! ## Immediates as the word holds them (R78-R83); their extension to 32 bits is in Machine/Operands.lean -/

/-- imm[11:0] of the I-type (R73, R78). -/
def immIField (w : Word) : BitVec 12 := w.extractLsb' 20 12

/-- shamt[4:0] of the I-type shift form (R73, R79). -/
def shamtField (w : Word) : BitVec 5 := w.extractLsb' 20 5

/-- imm[11:0] of the S-type, put together from its two pieces (R74, R80). -/
def immSField (w : Word) : BitVec 12 := w.extractLsb' 25 7 ++ w.extractLsb' 7 5

/-- imm[12:0] of the B-type, put together from its four pieces, bit 0 being 0 (R75, R81). -/
def immBField (w : Word) : BitVec 13 :=
  w.extractLsb' 31 1 ++ w.extractLsb' 7 1 ++ w.extractLsb' 25 6 ++ w.extractLsb' 8 4 ++ 0#1

/-- imm[31:12] of the U-type (R76, R82). -/
def immUField (w : Word) : BitVec 20 := w.extractLsb' 12 20

/-- imm[20:0] of the J-type, put together from its four pieces, bit 0 being 0 (R77, R83). -/
def immJField (w : Word) : BitVec 21 :=
  w.extractLsb' 31 1 ++ w.extractLsb' 12 8 ++ w.extractLsb' 20 1 ++ w.extractLsb' 21 10 ++ 0#1

/-! ## The opcode map (R86) -/

def opcodeOp : BitVec 7 := 0b0110011
def opcodeOpImm : BitVec 7 := 0b0010011
def opcodeLoad : BitVec 7 := 0b0000011
def opcodeStore : BitVec 7 := 0b0100011
def opcodeBranch : BitVec 7 := 0b1100011
def opcodeJal : BitVec 7 := 0b1101111
def opcodeJalr : BitVec 7 := 0b1100111
def opcodeLui : BitVec 7 := 0b0110111
def opcodeAuipc : BitVec 7 := 0b0010111

/-- funct7 of the base operations (R72, R87, R88). -/
def funct7Base : BitVec 7 := 0b0000000

/-- funct7 of SUB, SRA and SRAI (R72, R87, R88). -/
def funct7Alt : BitVec 7 := 0b0100000

/-- funct7 of the M extension (R72, R87). -/
def funct7M : BitVec 7 := 0b0000001

/-! ## The decoder (R93) -/

/-- What the decoder makes of a word: one of the 45 instructions, or `Unsupported` (R93, R94). -/
inductive Decoded where
  | instr (i : Instr)
  | unsupported
  deriving DecidableEq, Repr

/-- OP with funct7 0000000 (R87). -/
def decodeOpBase (f3 : BitVec 3) (rd rs1 rs2 : RegIdx) : Decoded :=
  if f3 = 0b000 then .instr (.add rd rs1 rs2)
  else if f3 = 0b001 then .instr (.sll rd rs1 rs2)
  else if f3 = 0b010 then .instr (.slt rd rs1 rs2)
  else if f3 = 0b011 then .instr (.sltu rd rs1 rs2)
  else if f3 = 0b100 then .instr (.xor rd rs1 rs2)
  else if f3 = 0b101 then .instr (.srl rd rs1 rs2)
  else if f3 = 0b110 then .instr (.or rd rs1 rs2)
  else if f3 = 0b111 then .instr (.and rd rs1 rs2)
  else .unsupported

/-- OP with funct7 0100000: SUB and SRA only (R87). -/
def decodeOpAlt (f3 : BitVec 3) (rd rs1 rs2 : RegIdx) : Decoded :=
  if f3 = 0b000 then .instr (.sub rd rs1 rs2)
  else if f3 = 0b101 then .instr (.sra rd rs1 rs2)
  else .unsupported

/-- OP with funct7 0000001, the M extension (R87). -/
def decodeOpM (f3 : BitVec 3) (rd rs1 rs2 : RegIdx) : Decoded :=
  if f3 = 0b000 then .instr (.mul rd rs1 rs2)
  else if f3 = 0b001 then .instr (.mulh rd rs1 rs2)
  else if f3 = 0b010 then .instr (.mulhsu rd rs1 rs2)
  else if f3 = 0b011 then .instr (.mulhu rd rs1 rs2)
  else if f3 = 0b100 then .instr (.div rd rs1 rs2)
  else if f3 = 0b101 then .instr (.divu rd rs1 rs2)
  else if f3 = 0b110 then .instr (.rem rd rs1 rs2)
  else if f3 = 0b111 then .instr (.remu rd rs1 rs2)
  else .unsupported

/-- OP: funct7, then funct3 (R87). -/
def decodeOp (f7 : BitVec 7) (f3 : BitVec 3) (rd rs1 rs2 : RegIdx) : Decoded :=
  if f7 = funct7Base then decodeOpBase f3 rd rs1 rs2
  else if f7 = funct7Alt then decodeOpAlt f3 rd rs1 rs2
  else if f7 = funct7M then decodeOpM f3 rd rs1 rs2
  else .unsupported

/-- OP-IMM: funct3, and for the shifts the whole funct7 field (R88). -/
def decodeOpImm (f7 : BitVec 7) (f3 : BitVec 3) (rd rs1 : RegIdx) (shamt : BitVec 5) (imm : BitVec 12) : Decoded :=
  if f3 = 0b000 then .instr (.addi rd rs1 imm)
  else if f3 = 0b010 then .instr (.slti rd rs1 imm)
  else if f3 = 0b011 then .instr (.sltiu rd rs1 imm)
  else if f3 = 0b100 then .instr (.xori rd rs1 imm)
  else if f3 = 0b110 then .instr (.ori rd rs1 imm)
  else if f3 = 0b111 then .instr (.andi rd rs1 imm)
  else if f3 = 0b001 then
    if f7 = funct7Base then .instr (.slli rd rs1 shamt) else .unsupported
  else if f3 = 0b101 then
    if f7 = funct7Base then .instr (.srli rd rs1 shamt)
    else if f7 = funct7Alt then .instr (.srai rd rs1 shamt)
    else .unsupported
  else .unsupported

/-- LOAD: funct3 (R89). -/
def decodeLoad (f3 : BitVec 3) (rd rs1 : RegIdx) (imm : BitVec 12) : Decoded :=
  if f3 = 0b000 then .instr (.lb rd rs1 imm)
  else if f3 = 0b001 then .instr (.lh rd rs1 imm)
  else if f3 = 0b010 then .instr (.lw rd rs1 imm)
  else if f3 = 0b100 then .instr (.lbu rd rs1 imm)
  else if f3 = 0b101 then .instr (.lhu rd rs1 imm)
  else .unsupported

/-- STORE: funct3 (R90). -/
def decodeStore (f3 : BitVec 3) (rs1 rs2 : RegIdx) (imm : BitVec 12) : Decoded :=
  if f3 = 0b000 then .instr (.sb rs1 rs2 imm)
  else if f3 = 0b001 then .instr (.sh rs1 rs2 imm)
  else if f3 = 0b010 then .instr (.sw rs1 rs2 imm)
  else .unsupported

/-- BRANCH: funct3 (R91). -/
def decodeBranch (f3 : BitVec 3) (rs1 rs2 : RegIdx) (imm : BitVec 13) : Decoded :=
  if f3 = 0b000 then .instr (.beq rs1 rs2 imm)
  else if f3 = 0b001 then .instr (.bne rs1 rs2 imm)
  else if f3 = 0b100 then .instr (.blt rs1 rs2 imm)
  else if f3 = 0b101 then .instr (.bge rs1 rs2 imm)
  else if f3 = 0b110 then .instr (.bltu rs1 rs2 imm)
  else if f3 = 0b111 then .instr (.bgeu rs1 rs2 imm)
  else .unsupported

/-- The decoder: total on every word, `unsupported` for every word that is none of the 45 instructions (R93, R94). -/
def decode (w : Word) : Decoded :=
  let op := opcodeField w
  if op = opcodeOp then decodeOp (funct7Field w) (funct3Field w) (rdField w) (rs1Field w) (rs2Field w)
  else if op = opcodeOpImm then
    decodeOpImm (funct7Field w) (funct3Field w) (rdField w) (rs1Field w) (shamtField w) (immIField w)
  else if op = opcodeLoad then decodeLoad (funct3Field w) (rdField w) (rs1Field w) (immIField w)
  else if op = opcodeStore then decodeStore (funct3Field w) (rs1Field w) (rs2Field w) (immSField w)
  else if op = opcodeBranch then decodeBranch (funct3Field w) (rs1Field w) (rs2Field w) (immBField w)
  else if op = opcodeJal then .instr (.jal (rdField w) (immJField w))
  else if op = opcodeJalr then
    if funct3Field w = 0b000 then .instr (.jalr (rdField w) (rs1Field w) (immIField w)) else .unsupported
  else if op = opcodeLui then .instr (.lui (rdField w) (immUField w))
  else if op = opcodeAuipc then .instr (.auipc (rdField w) (immUField w))
  else .unsupported

/-- The decoder on a word numbered as spec/opcode_table.json numbers it: one 32-bit word (R70), the bits at and above
`nbits` being 0. -/
def decodeTableWord (nbits w : Nat) : Option Instr :=
  match decode (BitVec.ofNat 32 (w % 2 ^ nbits)) with
  | .instr i => some i
  | .unsupported => none

/-! ## The encoder (R72-R77, R85) -/

/-- `funct7|rs2|rs1|funct3|rd|opcode` (R72). -/
def encodeR (f7 : BitVec 7) (f3 : BitVec 3) (rd rs1 rs2 : RegIdx) : Word :=
  f7 ++ rs2 ++ rs1 ++ f3 ++ rd ++ opcodeOp

/-- `imm[11:0]|rs1|funct3|rd|opcode` (R73). -/
def encodeI (op : BitVec 7) (f3 : BitVec 3) (rd rs1 : RegIdx) (imm : BitVec 12) : Word :=
  imm ++ rs1 ++ f3 ++ rd ++ op

/-- `funct7|shamt|rs1|funct3|rd|opcode` (R73). -/
def encodeShift (f7 : BitVec 7) (f3 : BitVec 3) (rd rs1 : RegIdx) (shamt : BitVec 5) : Word :=
  f7 ++ shamt ++ rs1 ++ f3 ++ rd ++ opcodeOpImm

/-- `imm[11:5]|rs2|rs1|funct3|imm[4:0]|opcode` (R74). -/
def encodeS (f3 : BitVec 3) (rs1 rs2 : RegIdx) (imm : BitVec 12) : Word :=
  imm.extractLsb' 5 7 ++ rs2 ++ rs1 ++ f3 ++ imm.extractLsb' 0 5 ++ opcodeStore

/-- `imm[12]|imm[10:5]|rs2|rs1|funct3|imm[4:1]|imm[11]|opcode`; bit 0 is not encoded (R75). -/
def encodeB (f3 : BitVec 3) (rs1 rs2 : RegIdx) (imm : BitVec 13) : Word :=
  imm.extractLsb' 12 1 ++ imm.extractLsb' 5 6 ++ rs2 ++ rs1 ++ f3 ++ imm.extractLsb' 1 4 ++ imm.extractLsb' 11 1
    ++ opcodeBranch

/-- `imm[31:12]|rd|opcode` (R76). -/
def encodeU (op : BitVec 7) (rd : RegIdx) (imm : BitVec 20) : Word :=
  imm ++ rd ++ op

/-- `imm[20]|imm[10:1]|imm[11]|imm[19:12]|rd|opcode`; bit 0 is not encoded (R77). -/
def encodeJ (rd : RegIdx) (imm : BitVec 21) : Word :=
  imm.extractLsb' 20 1 ++ imm.extractLsb' 1 10 ++ imm.extractLsb' 11 1 ++ imm.extractLsb' 12 8 ++ rd ++ opcodeJal

/-- The word of an instruction (R85); of an ill-formed one, the word that drops its displacement's bit 0. -/
def encode : Instr → Word
  | .add rd rs1 rs2 => encodeR funct7Base 0b000 rd rs1 rs2
  | .sub rd rs1 rs2 => encodeR funct7Alt 0b000 rd rs1 rs2
  | .sll rd rs1 rs2 => encodeR funct7Base 0b001 rd rs1 rs2
  | .slt rd rs1 rs2 => encodeR funct7Base 0b010 rd rs1 rs2
  | .sltu rd rs1 rs2 => encodeR funct7Base 0b011 rd rs1 rs2
  | .xor rd rs1 rs2 => encodeR funct7Base 0b100 rd rs1 rs2
  | .srl rd rs1 rs2 => encodeR funct7Base 0b101 rd rs1 rs2
  | .sra rd rs1 rs2 => encodeR funct7Alt 0b101 rd rs1 rs2
  | .or rd rs1 rs2 => encodeR funct7Base 0b110 rd rs1 rs2
  | .and rd rs1 rs2 => encodeR funct7Base 0b111 rd rs1 rs2
  | .mul rd rs1 rs2 => encodeR funct7M 0b000 rd rs1 rs2
  | .mulh rd rs1 rs2 => encodeR funct7M 0b001 rd rs1 rs2
  | .mulhsu rd rs1 rs2 => encodeR funct7M 0b010 rd rs1 rs2
  | .mulhu rd rs1 rs2 => encodeR funct7M 0b011 rd rs1 rs2
  | .div rd rs1 rs2 => encodeR funct7M 0b100 rd rs1 rs2
  | .divu rd rs1 rs2 => encodeR funct7M 0b101 rd rs1 rs2
  | .rem rd rs1 rs2 => encodeR funct7M 0b110 rd rs1 rs2
  | .remu rd rs1 rs2 => encodeR funct7M 0b111 rd rs1 rs2
  | .addi rd rs1 imm => encodeI opcodeOpImm 0b000 rd rs1 imm
  | .slti rd rs1 imm => encodeI opcodeOpImm 0b010 rd rs1 imm
  | .sltiu rd rs1 imm => encodeI opcodeOpImm 0b011 rd rs1 imm
  | .xori rd rs1 imm => encodeI opcodeOpImm 0b100 rd rs1 imm
  | .ori rd rs1 imm => encodeI opcodeOpImm 0b110 rd rs1 imm
  | .andi rd rs1 imm => encodeI opcodeOpImm 0b111 rd rs1 imm
  | .slli rd rs1 shamt => encodeShift funct7Base 0b001 rd rs1 shamt
  | .srli rd rs1 shamt => encodeShift funct7Base 0b101 rd rs1 shamt
  | .srai rd rs1 shamt => encodeShift funct7Alt 0b101 rd rs1 shamt
  | .lb rd rs1 imm => encodeI opcodeLoad 0b000 rd rs1 imm
  | .lh rd rs1 imm => encodeI opcodeLoad 0b001 rd rs1 imm
  | .lw rd rs1 imm => encodeI opcodeLoad 0b010 rd rs1 imm
  | .lbu rd rs1 imm => encodeI opcodeLoad 0b100 rd rs1 imm
  | .lhu rd rs1 imm => encodeI opcodeLoad 0b101 rd rs1 imm
  | .sb rs1 rs2 imm => encodeS 0b000 rs1 rs2 imm
  | .sh rs1 rs2 imm => encodeS 0b001 rs1 rs2 imm
  | .sw rs1 rs2 imm => encodeS 0b010 rs1 rs2 imm
  | .beq rs1 rs2 imm => encodeB 0b000 rs1 rs2 imm
  | .bne rs1 rs2 imm => encodeB 0b001 rs1 rs2 imm
  | .blt rs1 rs2 imm => encodeB 0b100 rs1 rs2 imm
  | .bge rs1 rs2 imm => encodeB 0b101 rs1 rs2 imm
  | .bltu rs1 rs2 imm => encodeB 0b110 rs1 rs2 imm
  | .bgeu rs1 rs2 imm => encodeB 0b111 rs1 rs2 imm
  | .jal rd imm => encodeJ rd imm
  | .jalr rd rs1 imm => encodeI opcodeJalr 0b000 rd rs1 imm
  | .lui rd imm => encodeU opcodeLui rd imm
  | .auipc rd imm => encodeU opcodeAuipc rd imm

/-! ## The opcode table in its match-and-mask form (spec/opcode_table.json, one row per instruction; R93) -/

structure OpcodeRow where
  mnemonic : String
  pattern : Word
  mask : Word
  deriving DecidableEq, Repr

/-- The mask that fixes opcode, funct3 and funct7. -/
def maskOpFunct : Word := 0xFE00707F
/-- The mask that fixes opcode and funct3. -/
def maskOpFunct3 : Word := 0x0000707F
/-- The mask that fixes the opcode alone. -/
def maskOp : Word := 0x0000007F

def rowsRegister : List OpcodeRow :=
  [ ⟨"ADD", 0x00000033, maskOpFunct⟩,
    ⟨"SUB", 0x40000033, maskOpFunct⟩,
    ⟨"SLL", 0x00001033, maskOpFunct⟩,
    ⟨"SLT", 0x00002033, maskOpFunct⟩,
    ⟨"SLTU", 0x00003033, maskOpFunct⟩,
    ⟨"XOR", 0x00004033, maskOpFunct⟩,
    ⟨"SRL", 0x00005033, maskOpFunct⟩,
    ⟨"SRA", 0x40005033, maskOpFunct⟩,
    ⟨"OR", 0x00006033, maskOpFunct⟩,
    ⟨"AND", 0x00007033, maskOpFunct⟩ ]

def rowsM : List OpcodeRow :=
  [ ⟨"MUL", 0x02000033, maskOpFunct⟩,
    ⟨"MULH", 0x02001033, maskOpFunct⟩,
    ⟨"MULHSU", 0x02002033, maskOpFunct⟩,
    ⟨"MULHU", 0x02003033, maskOpFunct⟩,
    ⟨"DIV", 0x02004033, maskOpFunct⟩,
    ⟨"DIVU", 0x02005033, maskOpFunct⟩,
    ⟨"REM", 0x02006033, maskOpFunct⟩,
    ⟨"REMU", 0x02007033, maskOpFunct⟩ ]

def rowsImmediate : List OpcodeRow :=
  [ ⟨"ADDI", 0x00000013, maskOpFunct3⟩,
    ⟨"SLTI", 0x00002013, maskOpFunct3⟩,
    ⟨"SLTIU", 0x00003013, maskOpFunct3⟩,
    ⟨"XORI", 0x00004013, maskOpFunct3⟩,
    ⟨"ORI", 0x00006013, maskOpFunct3⟩,
    ⟨"ANDI", 0x00007013, maskOpFunct3⟩,
    ⟨"SLLI", 0x00001013, maskOpFunct⟩,
    ⟨"SRLI", 0x00005013, maskOpFunct⟩,
    ⟨"SRAI", 0x40005013, maskOpFunct⟩ ]

def rowsLoadStore : List OpcodeRow :=
  [ ⟨"LB", 0x00000003, maskOpFunct3⟩,
    ⟨"LH", 0x00001003, maskOpFunct3⟩,
    ⟨"LW", 0x00002003, maskOpFunct3⟩,
    ⟨"LBU", 0x00004003, maskOpFunct3⟩,
    ⟨"LHU", 0x00005003, maskOpFunct3⟩,
    ⟨"SB", 0x00000023, maskOpFunct3⟩,
    ⟨"SH", 0x00001023, maskOpFunct3⟩,
    ⟨"SW", 0x00002023, maskOpFunct3⟩ ]

def rowsControl : List OpcodeRow :=
  [ ⟨"BEQ", 0x00000063, maskOpFunct3⟩,
    ⟨"BNE", 0x00001063, maskOpFunct3⟩,
    ⟨"BLT", 0x00004063, maskOpFunct3⟩,
    ⟨"BGE", 0x00005063, maskOpFunct3⟩,
    ⟨"BLTU", 0x00006063, maskOpFunct3⟩,
    ⟨"BGEU", 0x00007063, maskOpFunct3⟩,
    ⟨"JAL", 0x0000006F, maskOp⟩,
    ⟨"JALR", 0x00000067, maskOpFunct3⟩,
    ⟨"LUI", 0x00000037, maskOp⟩,
    ⟨"AUIPC", 0x00000017, maskOp⟩ ]

def opcodeRows : List OpcodeRow := rowsRegister ++ rowsM ++ rowsImmediate ++ rowsLoadStore ++ rowsControl

/-- The word has the row's pattern. -/
def OpcodeRow.covers (r : OpcodeRow) (w : Word) : Bool := w &&& r.mask == r.pattern

end Sys2Proof
end

