-- ==== Sys2Proof/Config.lean ====
section
/-! DEFINITION. The implementation parameters of spec/00_scope.md rule R6. The two parameters that have an
alternative (MISALIGNED_DATA, DIV_OVERFLOW) are data, `Params`, which `State` carries unchanged through every step
(log entry 3), so that a claim can be made for either value. No value of the engine is left free: the spec gives
every result a value, so this file holds no opaque constant. -/

namespace Sys2Proof

/-- MISALIGNED_DATA: what a misaligned halfword or word access does (R6, R48). -/
inductive MisalignedData where
  /-- performed byte by byte, little-endian: the value this hardware takes -/
  | splitLe
  /-- raises INVALID_MEMORY_ACCESS -/
  | fault
  deriving DecidableEq, Repr

/-- DIV_OVERFLOW: what DIV and REM of 0x80000000 by 0xFFFFFFFF do (R6, R162). -/
inductive DivOverflow where
  /-- quotient 0x80000000, remainder 0: the value this hardware takes -/
  | riscv
  /-- the model-only fault DIV_OVERFLOW_UNMODELLED -/
  | fault
  deriving DecidableEq, Repr

/-- The parameters with an alternative. -/
structure Params where
  misalignedData : MisalignedData
  divOverflow : DivOverflow
  deriving DecidableEq, Repr

/-- The values this hardware takes (R6). -/
def Params.hardware : Params := ⟨.splitLe, .riscv⟩

/-- MEM_WORDS at creation unless configured otherwise (R6, R41). -/
def defaultMemWords : Nat := 2048

/-- The longest program a 32-bit pc can index: L is at most 2^30 words (R6). -/
def maxProgramWords : Nat := 2 ^ 30

end Sys2Proof
end

