-- ==== Sys2Proof/Machine/State.lean ====
section
/-! DEFINITION. The state of the engine as plain data (spec/10_state.md rules R20-R30), the outcome record of a Step
(spec/40_execution_cycle.md rule R127), the execution errors (spec/60_exceptions.md rule R250), the reasons a step of the
model can stop, and the state after creation. -/

namespace Sys2Proof.Machine

/-- The closed set of execution error kinds (R250). -/
inductive ExecutionError where
  | none
  | unsupportedOpcode
  | invalidRegister
  | invalidMemoryAccess
  | divisionByZero
  | pcOutOfBounds
  | offsetNot32BitAligned
  deriving DecidableEq, Repr

/-- The width of a data access (R43). -/
inductive AccessWidth where
  | byte
  | half
  | word
  deriving DecidableEq, Repr

/-- The memory change a Step reports: the byte address and the stored value, zero-extended from its width (R127). -/
structure MemChange where
  address : Word
  value : Word
  deriving DecidableEq, Repr

/-- The register change a Step reports: rd and x[rd] after the write (R127). -/
structure RegChange where
  index : RegIdx
  value : Word
  deriving DecidableEq, Repr

/-- The record a Step returns (R127); `failIndex` is a word index of the instruction stream. -/
structure StepOutcome where
  success : Bool
  error : ExecutionError
  memChange : Option MemChange
  regChange : Option RegChange
  pc : Word
  failIndex : Option Nat
  deriving DecidableEq, Repr

/-- The data memory: the bytes that differ from what an unlisted address reads as, by rising byte address (R29, R41). -/
abbrev Memory := List Host.Cell

/-- What a byte of memory that nothing has written reads as: 0, the value the spec gives at creation, after `Reset()` and
for growth (R30, R52, R54; log entry 9). -/
def unlistedByte : Byte := 0

/-- The canonical form: addresses strictly rising, and no entry equal to what an unlisted address reads as. -/
abbrev Memory.wf (m : Memory) : Prop :=
  m.Pairwise (fun c d => c.1 < d.1) ∧ ∀ c ∈ m, c.2 ≠ unlistedByte

/-- All the engine keeps between two Steps (R29), and two fields of the model's own. -/
structure State where
  /-- the slots X[0] .. X[31]; read and written only through `readReg` and `writeReg`, which hard-wire x0 (R20, R21) -/
  regs : Vector Word 32
  /-- the 33rd slot: the byte address of the instruction (R24) -/
  pc : Word
  /-- the data memory (R29, R41) -/
  mem : Memory
  /-- MEM_WORDS, the data memory's size in 4-byte words (R6, R41) -/
  memWords : Nat
  /-- the instruction stream P; its length is L (R28) -/
  program : List Word
  /-- the model's own: the parameters of R6 that have an alternative, which no step changes (DESIGN CHOICE, log entry 3) -/
  params : Params
  /-- the model's own: what the last Step returned, none before the first Step after creation or `Reset()`
  (DESIGN CHOICE, log entry 2).
  It is an output: no step reads it (R29). -/
  lastOutcome : Option StepOutcome
  deriving DecidableEq, Repr

/-- Why a step of the model stops with a fault. -/
inductive Fault where
  /-- DIV_OVERFLOW_UNMODELLED of R162: raised by DIV and REM of 0x80000000 by 0xFFFFFFFF when the parameter DIV_OVERFLOW is
  `fault`, and by nothing when it is `riscv`, the value this hardware takes. It carries the index of the instruction
  (DEDUCED, log entry 4). Safe: the spec gives no state after it. -/
  | divOverflowUnmodelled (index : Nat)
  deriving DecidableEq, Repr

/-- Why the model gives no meaning. -/
inductive Refusal where
  /-- An instruction without a meaning; no instruction of this model is left so. Safe. -/
  | notModelled (mnemonic : String)
  /-- `LoadProgram` of more than 2^30 words, which the spec refuses (R6): raised by the host command only, never by a step.
  Safe. -/
  | programTooLong
  deriving DecidableEq, Repr

/-- A newly created engine (R30, R281): every register and the pc 0, every memory byte 0, MEM_WORDS as configured, an empty
program. -/
def State.create (memWords : Nat) (params : Params) : State where
  regs := Vector.replicate 32 0
  pc := 0
  mem := []
  memWords := memWords
  program := []
  params := params
  lastOutcome := none

/-- The engine right after creation with the default memory size, which is the `Reset()` state with an empty program
(R281). -/
def State.reset : State := State.create defaultMemWords Params.hardware

end Sys2Proof.Machine
end

