-- ==== Sys2Proof/Machine/Ops.lean ====
section
/-! DEFINITION. The operations every instruction is written over: the register file (spec/10_state.md), the data memory and
its access check (spec/20_memory.md), fetch, the commit of an instruction's effect and the PC multiplexer
(spec/40_execution_cycle.md), and what the engine does on an execution error, the error reset
(spec/60_exceptions.md rule R256). The engine has no return from an error (R258), so there is no operation for one. -/

namespace Sys2Proof.Machine

/-! ## Plain updates of one field -/

def State.setPc (s : State) (v : Word) : State := { s with pc := v }
def State.setMem (s : State) (m : Memory) : State := { s with mem := m }
def State.setRegs (s : State) (r : Vector Word 32) : State := { s with regs := r }
def State.setOutcome (s : State) (o : StepOutcome) : State := { s with lastOutcome := some o }

/-! ## Registers -/

/-- `x[i]`: x0 reads 0 (R8, R21). -/
def readReg (s : State) (i : RegIdx) : Word :=
  if i = 0 then 0 else s.regs[i.toNat]'(i.isLt)

/-- `x[i] <- v`: a write to x0 is discarded, never an error (R8, R21). -/
def writeReg (s : State) (i : RegIdx) (v : Word) : State :=
  if i = 0 then s else s.setRegs (s.regs.set i.toNat v i.isLt)

/-! ## Data memory -/

/-- MEM_BYTES = 4 x MEM_WORDS (R41). -/
def memBytes (s : State) : Nat := 4 * s.memWords

/-- `M[a]`. -/
def Memory.readByte (m : Memory) (a : Nat) : Byte :=
  match m with
  | [] => unlistedByte
  | c :: rest => if c.1 = a then c.2 else Memory.readByte rest a

/-- The memory without any entry for the address. -/
def Memory.erase (m : Memory) (a : Nat) : Memory :=
  m.filter (fun c => c.1 != a)

/-- The entry put where its address belongs. -/
def Memory.insert (m : Memory) (a : Nat) (v : Byte) : Memory :=
  match m with
  | [] => [(a, v)]
  | c :: rest => if a < c.1 then (a, v) :: c :: rest else c :: Memory.insert rest a v

/-- `M[a] := v`, in canonical form: writing what an unlisted address reads as removes the entry. -/
def Memory.writeByte (m : Memory) (a : Nat) (v : Byte) : Memory :=
  if v = unlistedByte then Memory.erase m a else Memory.insert (Memory.erase m a) a v

/-- The number of bytes of an access (R43). -/
def AccessWidth.bytes : AccessWidth → Nat
  | .byte => 1
  | .half => 2
  | .word => 4

/-- `{M[a+n-1], ..., M[a+1], M[a]}` zero-extended to a word, for n at most 4: the byte at the lowest address is the least
significant one (R45, R47). The addresses count on as integers: beyond 0xFFFFFFFF they do not wrap (DESIGN CHOICE, log entry
12). -/
def Memory.readBytes (m : Memory) (a : Nat) : Nat → Word
  | 0 => 0
  | n + 1 => (Memory.readByte m a).setWidth 32 ||| (Memory.readBytes m (a + 1) n <<< 8)

/-- `M[a+i] := v[8i+7:8i]` for i below n, the lowest byte first (R46, R47), the addresses counted as
integers, without wrap (DESIGN CHOICE, log entry 12). -/
def Memory.writeBytes (m : Memory) (a : Nat) (v : Word) : Nat → Memory
  | 0 => m
  | n + 1 => Memory.writeBytes (Memory.writeByte m a (v.setWidth 8)) (a + 1) (v >>> 8) n

/-- `AccessOK(addr, n)`: every byte of the access lies below MEM_BYTES, computed without wrap, and with MISALIGNED_DATA =
fault the address is a multiple of n (R44, R48). With MEM_BYTES above 2^32 it lets an access pass that begins just below
2^32 and ends beyond (log entry 12). It tests the wrapped address alone, so that with MEM_BYTES above 2^32 - 2048 an address that
came from a negative sum can pass, where R42, R203 and R209 say that it raises (DESIGN CHOICE, log entry 13). -/
def accessOk (s : State) (addr : Word) (n : Nat) : Bool :=
  decide (addr.toNat + n ≤ memBytes s) &&
    (decide (s.params.misalignedData = .splitLe) || decide (addr.toNat % n = 0))

/-- `MemRead(addr, n)`, zero-extended; meant only where `accessOk` holds (R45, R50). An access that begins just below
2^32 goes on to byte 2^32 (DESIGN CHOICE, log entry 12). -/
def memRead (s : State) (addr : Word) (w : AccessWidth) : Word :=
  Memory.readBytes s.mem addr.toNat w.bytes

/-- `MemWrite(addr, n, v)`: the low 8n bits of v; meant only where `accessOk` holds (R46, R50). An access that begins
just below 2^32 goes on to byte 2^32 (DESIGN CHOICE, log entry 12). -/
def memWrite (s : State) (addr : Word) (w : AccessWidth) (v : Word) : State :=
  s.setMem (Memory.writeBytes s.mem addr.toNat v w.bytes)

/-- `trunc_{8n}(v)` zero-extended (R7). -/
def zeroExtendLow (w : AccessWidth) (v : Word) : Word :=
  match w with
  | .byte => (v.setWidth 8).setWidth 32
  | .half => (v.setWidth 16).setWidth 32
  | .word => v

/-- `trunc_{8n}(v)` sign-extended (R7). -/
def signExtendLow (w : AccessWidth) (v : Word) : Word :=
  match w with
  | .byte => (v.setWidth 8).signExtend 32
  | .half => (v.setWidth 16).signExtend 32
  | .word => v

/-! ## Fetch -/

/-- The instruction index `u(pc) div 4` (R120). -/
def fetchIndex (s : State) : Nat := s.pc.toNat / 4

/-- The word at the pc, or none when the index is at or beyond the program length (R120). -/
def fetch (s : State) : Option Word := s.program[fetchIndex s]?

/-- The instruction stream with `w` as its word `idx`; where the stream is shorter, the words up to `idx` are 0. -/
def programWithWord (p : List Word) (idx : Nat) (w : Word) : List Word :=
  if idx < p.length then p.set idx w else p ++ List.replicate (idx - p.length) 0 ++ [w]

/-! ## The commit of an instruction that raised nothing -/

/-- A memory write an instruction yields. -/
structure MemWrite where
  address : Word
  width : AccessWidth
  value : Word
  deriving DecidableEq, Repr

/-- What an instruction yields when it raises nothing: at most one register write, at most one memory write and the next
pc (R123). -/
structure Effect where
  regWrite : Option (RegIdx × Word)
  memWrite : Option MemWrite
  nextPc : Word
  deriving DecidableEq, Repr

/-- The source SEQ of the PC multiplexer, `incrementPC()` (R125). -/
def seqPc (s : State) : Word := s.pc + 4

def applyMemWrite (s : State) : Option MemWrite → State
  | none => s
  | some w => memWrite s w.address w.width w.value

def applyRegWrite (s : State) : Option (RegIdx × Word) → State
  | none => s
  | some (i, v) => writeReg s i v

/-- The memory write, the register write and the pc, as one transition (R124). -/
def applyEffect (e : Effect) (s : State) : State :=
  (applyRegWrite (applyMemWrite s e.memWrite) e.regWrite).setPc e.nextPc

/-- The outcome of a successful Step; the register value is read back after the write (R126). -/
def successOutcome (e : Effect) (after : State) : StepOutcome where
  success := true
  error := .none
  memChange := e.memWrite.map fun w => ⟨w.address, zeroExtendLow w.width w.value⟩
  regChange := e.regWrite.map fun r => ⟨r.1, readReg after r.1⟩
  pc := after.pc
  failIndex := none

/-- The state after a successful instruction, with its outcome (R124, R126). -/
def commit (e : Effect) (s : State) : State :=
  (applyEffect e s).setOutcome (successOutcome e (applyEffect e s))

/-- The instruction raised nothing. -/
def complete (e : Effect) (s : State) : Host.Outcome State Fault Refusal := .next (commit e s)

/-- The instruction writes rd and goes on to the next word (R125). -/
def completeReg (rd : RegIdx) (v : Word) (s : State) : Host.Outcome State Fault Refusal :=
  complete { regWrite := some (rd, v), memWrite := none, nextPc := seqPc s } s

/-! ## Execution errors -/

/-- The outcome of a Step that raised an error: no change, pc 0, and the index of the instruction (R126, R251). -/
def errorOutcome (e : ExecutionError) (index : Nat) : StepOutcome where
  success := false
  error := e
  memChange := none
  regChange := none
  pc := 0
  failIndex := some index

/-- The error reset: every register and the pc become 0; the data memory, its size and the program are kept (R256). The slot of
x0, which nothing reads, is cleared with the others (DEDUCED, log entry 6). -/
def errorReset (s : State) : State :=
  (s.setRegs (Vector.replicate 32 0)).setPc 0

/-- `ErrorStep(E, idx)`: what the engine does on any execution error but PC_OUT_OF_BOUNDS, the ONE taking of an exception of
this engine (R126, R256, R257). That `step` answers it as a next state is DEDUCED (log entry 1). -/
def errorStep (e : ExecutionError) (s : State) : State :=
  (errorReset s).setOutcome (errorOutcome e (fetchIndex s))

/-- `raise E`: nothing the instruction would have written is written, and the error reset follows (R8, R124). The engine
answers a next state: control returns to the host, and a further Step restarts the program (R257). -/
def raise (e : ExecutionError) (s : State) : Host.Outcome State Fault Refusal := .next (errorStep e s)

/-- The report of PC_OUT_OF_BOUNDS: no register, pc or memory changes and no error reset (R120, R253). -/
def endOfProgram (s : State) : State :=
  s.setOutcome
    { success := false, error := .pcOutOfBounds, memChange := none, regChange := none, pc := s.pc,
      failIndex := some (fetchIndex s) }

/-- The numeric codes of the errors, in the order of the list (R250). -/
def ExecutionError.code : ExecutionError → Nat
  | .none => 0
  | .unsupportedOpcode => 1
  | .invalidRegister => 2
  | .invalidMemoryAccess => 3
  | .divisionByZero => 4
  | .pcOutOfBounds => 5
  | .offsetNot32BitAligned => 6

end Sys2Proof.Machine
end

