-- ==== Sys2Proof/Machine/Flags.lean ====
section
/-! DEFINITION. The engine has no flags, condition codes or predicate registers (spec/10_state.md rule R25), so there is no
flag to compute. What stands here is the one thing a comparison yields instead: the truth value that decides a branch
(spec/45_control_transfer.md rules R221-R226) or becomes the 0 or 1 of SLT, SLTU, SLTI and SLTIU
(spec/41_integer_register.md rules R145, R146, spec/43_integer_immediate.md rules R182, R183). -/

namespace Sys2Proof.Machine

/-- `a = b`. -/
def condEq (a b : Word) : Bool := decide (a = b)

/-- `s(a) < s(b)`. -/
def condLtSigned (a b : Word) : Bool := decide (a.toInt < b.toInt)

/-- `u(a) < u(b)`. -/
def condLtUnsigned (a b : Word) : Bool := decide (a.toNat < b.toNat)

/-- `if c then 1 else 0` as a word. -/
def condWord (c : Bool) : Word := if c then 1 else 0

end Sys2Proof.Machine
end

