-- ==== Sys2Proof/Machine/Operands.lean ====
section
/-! DEFINITION. The operand forms: immediates extended to 32 bits (spec/30_encoding.md rules R78-R83), shift amounts (R79,
spec/41_integer_register.md rule R141), effective addresses (spec/20_memory.md rule R42) and the targets of the PC multiplexer
(spec/40_execution_cycle.md rule R125). All sums are modulo 2^32. -/

namespace Sys2Proof.Machine

/-- `sext_12` of an I- or S-immediate (R78, R80). -/
def imm12 (imm : BitVec 12) : Word := imm.signExtend 32

/-- `sext_13` of a B-immediate (R81). -/
def immB (imm : BitVec 13) : Word := imm.signExtend 32

/-- `sext_21` of a J-immediate (R83). -/
def immJ (imm : BitVec 21) : Word := imm.signExtend 32

/-- `imm20 << 12`, the U-immediate (R82). -/
def immU (imm : BitVec 20) : Word := imm.setWidth 32 <<< 12

/-- The shift amount of SLL, SRL and SRA: the low five bits of x[rs2] (R141). -/
def regShamt (v : Word) : BitVec 5 := v.extractLsb' 0 5

/-- `x[rs1] + sext_12(imm)`, the address of a load or store (R42, R200, R206). -/
def effectiveAddress (s : State) (rs1 : RegIdx) (imm : BitVec 12) : Word := readReg s rs1 + imm12 imm

/-- The source BRANCH of the PC multiplexer. -/
def branchTarget (s : State) (imm : BitVec 13) : Word := s.pc + immB imm

/-- The source JAL of the PC multiplexer. -/
def jalTarget (s : State) (imm : BitVec 21) : Word := s.pc + immJ imm

/-- The source JALR of the PC multiplexer; bit 0 of the sum is not cleared (R229). -/
def jalrTarget (s : State) (rs1 : RegIdx) (imm : BitVec 12) : Word := readReg s rs1 + imm12 imm

/-- A multiple of 4, the test on a displacement or a target (R220, R228, R229). -/
def aligned4 (v : Word) : Bool := v.toNat % 4 == 0

end Sys2Proof.Machine
end

