-- ==== Sys2Proof/Machine/Alu.lean ====
section
/-! DEFINITION. The ALU: the results of the arithmetic instructions as functions of their operands
(spec/41_integer_register.md, spec/42_m_extension.md, spec/43_integer_immediate.md; the laws of all of them in rule R171). -/

namespace Sys2Proof.Machine

/-- `a << n`, zeros entering at bit 0 (R144, R187). -/
def shiftLeft (a : Word) (n : BitVec 5) : Word := a <<< n.toNat

/-- `a >>u n`, zeros entering at bit 31 (R148, R188). -/
def shiftRightLogical (a : Word) (n : BitVec 5) : Word := a >>> n.toNat

/-- `a >>s n`, copies of bit 31 entering at bit 31 (R149, R189). -/
def shiftRightArith (a : Word) (n : BitVec 5) : Word := a.sshiftRight n.toNat

/-- Bits 31..0 of the exact product (R160, R163). -/
def productLow (p : Int) : Word := BitVec.ofInt 32 p

/-- Bits 63..32 of the exact product, the 64-bit two's-complement product (R160, R164-R166). -/
def productHigh (p : Int) : Word := (BitVec.ofInt 64 p).extractLsb' 32 32

/-- The pair of operands whose quotient 2^31 does not fit (R162). -/
def divOverflowPair (a b : Word) : Bool := decide (a = 0x80000000) && decide (b = 0xFFFFFFFF)

/-- The quotient q of rule R167 as an integer, rounded toward zero. -/
def signedQuotient (a b : Word) : Int := a.toInt.tdiv b.toInt

/-- `trunc_32(q)` (R167). -/
def divSigned (a b : Word) : Word := BitVec.ofInt 32 (signedQuotient a b)

/-- `trunc_32(s(a) - q * s(b))` (R169). -/
def remSigned (a b : Word) : Word := BitVec.ofInt 32 (a.toInt - signedQuotient a b * b.toInt)

/-- `u(a) div u(b)` (R168). -/
def divUnsigned (a b : Word) : Word := BitVec.ofNat 32 (a.toNat / b.toNat)

/-- `u(a) mod u(b)` (R170). -/
def remUnsigned (a b : Word) : Word := BitVec.ofNat 32 (a.toNat % b.toNat)

end Sys2Proof.Machine
end

