-- ==== Sys2Proof/Machine/ControlTransfer.lean ====
section
/-! DEFINITION. The branches and the jumps (spec/45_control_transfer.md). There are no delay slots. A target outside the
program is no error of the instruction: the next Step reports PC_OUT_OF_BOUNDS (R227). -/

namespace Sys2Proof.Machine

/-- The common behaviour of the branches: the displacement is tested first, whether or not the branch is taken; then the
condition chooses between pc + immB and pc + 4 (R220). -/
def branchWith (cond : Bool) (imm : BitVec 13) (s : State) : Host.Outcome State Fault Refusal :=
  if aligned4 (immB imm) then
    complete { regWrite := none, memWrite := none, nextPc := if cond then branchTarget s imm else seqPc s } s
  else raise .offsetNot32BitAligned s

/-- The jump to `target` with the link pc + 4 in rd (R228, R229). -/
def jumpAndLink (rd : RegIdx) (target : Word) (s : State) : Host.Outcome State Fault Refusal :=
  complete { regWrite := some (rd, seqPc s), memWrite := none, nextPc := target } s

/-- BEQ (R221): taken if x[rs1] = x[rs2]. -/
def execBeq (rs1 rs2 : RegIdx) (imm : BitVec 13) (s : State) : Host.Outcome State Fault Refusal :=
  branchWith (condEq (readReg s rs1) (readReg s rs2)) imm s

/-- BNE (R222): taken if x[rs1] != x[rs2]. -/
def execBne (rs1 rs2 : RegIdx) (imm : BitVec 13) (s : State) : Host.Outcome State Fault Refusal :=
  branchWith (!condEq (readReg s rs1) (readReg s rs2)) imm s

/-- BLT (R223): taken if x[rs1] <s x[rs2]. -/
def execBlt (rs1 rs2 : RegIdx) (imm : BitVec 13) (s : State) : Host.Outcome State Fault Refusal :=
  branchWith (condLtSigned (readReg s rs1) (readReg s rs2)) imm s

/-- BGE (R224): taken if s(x[rs1]) >= s(x[rs2]). -/
def execBge (rs1 rs2 : RegIdx) (imm : BitVec 13) (s : State) : Host.Outcome State Fault Refusal :=
  branchWith (!condLtSigned (readReg s rs1) (readReg s rs2)) imm s

/-- BLTU (R225): taken if x[rs1] <u x[rs2]. -/
def execBltu (rs1 rs2 : RegIdx) (imm : BitVec 13) (s : State) : Host.Outcome State Fault Refusal :=
  branchWith (condLtUnsigned (readReg s rs1) (readReg s rs2)) imm s

/-- BGEU (R226): taken if u(x[rs1]) >= u(x[rs2]). -/
def execBgeu (rs1 rs2 : RegIdx) (imm : BitVec 13) (s : State) : Host.Outcome State Fault Refusal :=
  branchWith (!condLtUnsigned (readReg s rs1) (readReg s rs2)) imm s

/-- JAL (R228): the displacement must be a multiple of 4. -/
def execJal (rd : RegIdx) (imm : BitVec 21) (s : State) : Host.Outcome State Fault Refusal :=
  if aligned4 (immJ imm) then jumpAndLink rd (jalTarget s imm) s else raise .offsetNot32BitAligned s

/-- JALR (R229): the target must be a multiple of 4; x[rs1] is read before rd is written. -/
def execJalr (rd rs1 : RegIdx) (imm : BitVec 12) (s : State) : Host.Outcome State Fault Refusal :=
  if aligned4 (jalrTarget s rs1 imm) then jumpAndLink rd (jalrTarget s rs1 imm) s else raise .offsetNot32BitAligned s

end Sys2Proof.Machine
end

