-- ==== Sys2Proof/Machine/IntegerImmediate.lean ====
section
/-! DEFINITION. The register-immediate integer instructions (spec/43_integer_immediate.md). None raises an error (R180). -/

namespace Sys2Proof.Machine

/-- ADDI (R181): x[rd] <- x[rs1] + immI, modulo 2^32. -/
def execAddi (rd rs1 : RegIdx) (imm : BitVec 12) (s : State) : Host.Outcome State Fault Refusal :=
  completeReg rd (readReg s rs1 + imm12 imm) s

/-- SLTI (R182): x[rd] <- 1 if x[rs1] <s immI, else 0. -/
def execSlti (rd rs1 : RegIdx) (imm : BitVec 12) (s : State) : Host.Outcome State Fault Refusal :=
  completeReg rd (condWord (condLtSigned (readReg s rs1) (imm12 imm))) s

/-- SLTIU (R183): x[rd] <- 1 if x[rs1] <u immI, the sign-extended immediate read unsigned, else 0. -/
def execSltiu (rd rs1 : RegIdx) (imm : BitVec 12) (s : State) : Host.Outcome State Fault Refusal :=
  completeReg rd (condWord (condLtUnsigned (readReg s rs1) (imm12 imm))) s

/-- XORI (R184): x[rd] <- x[rs1] ^ immI. -/
def execXori (rd rs1 : RegIdx) (imm : BitVec 12) (s : State) : Host.Outcome State Fault Refusal :=
  completeReg rd (readReg s rs1 ^^^ imm12 imm) s

/-- ORI (R185): x[rd] <- x[rs1] | immI. -/
def execOri (rd rs1 : RegIdx) (imm : BitVec 12) (s : State) : Host.Outcome State Fault Refusal :=
  completeReg rd (readReg s rs1 ||| imm12 imm) s

/-- ANDI (R186): x[rd] <- x[rs1] & immI. -/
def execAndi (rd rs1 : RegIdx) (imm : BitVec 12) (s : State) : Host.Outcome State Fault Refusal :=
  completeReg rd (readReg s rs1 &&& imm12 imm) s

/-- SLLI (R187): x[rd] <- x[rs1] << shamt. -/
def execSlli (rd rs1 : RegIdx) (shamt : BitVec 5) (s : State) : Host.Outcome State Fault Refusal :=
  completeReg rd (shiftLeft (readReg s rs1) shamt) s

/-- SRLI (R188): x[rd] <- x[rs1] >>u shamt. -/
def execSrli (rd rs1 : RegIdx) (shamt : BitVec 5) (s : State) : Host.Outcome State Fault Refusal :=
  completeReg rd (shiftRightLogical (readReg s rs1) shamt) s

/-- SRAI (R189): x[rd] <- x[rs1] >>s shamt. -/
def execSrai (rd rs1 : RegIdx) (shamt : BitVec 5) (s : State) : Host.Outcome State Fault Refusal :=
  completeReg rd (shiftRightArith (readReg s rs1) shamt) s

end Sys2Proof.Machine
end

