-- ==== Sys2Proof/Machine/IntegerRegister.lean ====
section
/-! DEFINITION. The register-register integer instructions (spec/41_integer_register.md). None raises an error (R140). -/

namespace Sys2Proof.Machine

/-- ADD (R142): x[rd] <- x[rs1] + x[rs2], modulo 2^32. -/
def execAdd (rd rs1 rs2 : RegIdx) (s : State) : Host.Outcome State Fault Refusal :=
  completeReg rd (readReg s rs1 + readReg s rs2) s

/-- SUB (R143): x[rd] <- x[rs1] - x[rs2], modulo 2^32. -/
def execSub (rd rs1 rs2 : RegIdx) (s : State) : Host.Outcome State Fault Refusal :=
  completeReg rd (readReg s rs1 - readReg s rs2) s

/-- SLL (R144): x[rd] <- x[rs1] << x[rs2][4:0]. -/
def execSll (rd rs1 rs2 : RegIdx) (s : State) : Host.Outcome State Fault Refusal :=
  completeReg rd (shiftLeft (readReg s rs1) (regShamt (readReg s rs2))) s

/-- SLT (R145): x[rd] <- 1 if x[rs1] <s x[rs2], else 0. -/
def execSlt (rd rs1 rs2 : RegIdx) (s : State) : Host.Outcome State Fault Refusal :=
  completeReg rd (condWord (condLtSigned (readReg s rs1) (readReg s rs2))) s

/-- SLTU (R146): x[rd] <- 1 if x[rs1] <u x[rs2], else 0. -/
def execSltu (rd rs1 rs2 : RegIdx) (s : State) : Host.Outcome State Fault Refusal :=
  completeReg rd (condWord (condLtUnsigned (readReg s rs1) (readReg s rs2))) s

/-- XOR (R147): x[rd] <- x[rs1] ^ x[rs2]. -/
def execXor (rd rs1 rs2 : RegIdx) (s : State) : Host.Outcome State Fault Refusal :=
  completeReg rd (readReg s rs1 ^^^ readReg s rs2) s

/-- SRL (R148): x[rd] <- x[rs1] >>u x[rs2][4:0]. -/
def execSrl (rd rs1 rs2 : RegIdx) (s : State) : Host.Outcome State Fault Refusal :=
  completeReg rd (shiftRightLogical (readReg s rs1) (regShamt (readReg s rs2))) s

/-- SRA (R149): x[rd] <- x[rs1] >>s x[rs2][4:0]. -/
def execSra (rd rs1 rs2 : RegIdx) (s : State) : Host.Outcome State Fault Refusal :=
  completeReg rd (shiftRightArith (readReg s rs1) (regShamt (readReg s rs2))) s

/-- OR (R150): x[rd] <- x[rs1] | x[rs2]. -/
def execOr (rd rs1 rs2 : RegIdx) (s : State) : Host.Outcome State Fault Refusal :=
  completeReg rd (readReg s rs1 ||| readReg s rs2) s

/-- AND (R151): x[rd] <- x[rs1] & x[rs2]. -/
def execAnd (rd rs1 rs2 : RegIdx) (s : State) : Host.Outcome State Fault Refusal :=
  completeReg rd (readReg s rs1 &&& readReg s rs2) s

end Sys2Proof.Machine
end

