-- ==== Sys2Proof/Machine/LoadsStores.lean ====
section
/-! DEFINITION. The loads and the stores (spec/44_loads_stores.md). -/

namespace Sys2Proof.Machine

/-- The common behaviour of the loads: the check, the read, the extension, the write of rd; a load to x0 makes its access and
can raise like any other (R200). -/
def loadWith (width : AccessWidth) (extend : AccessWidth → Word → Word) (rd rs1 : RegIdx) (imm : BitVec 12) (s : State) :
    Host.Outcome State Fault Refusal :=
  let ea := effectiveAddress s rs1 imm
  if accessOk s ea width.bytes then completeReg rd (extend width (memRead s ea width)) s
  else raise .invalidMemoryAccess s

/-- The common behaviour of the stores: the check, then the write of the low bytes of x[rs2] (R206). -/
def storeWith (width : AccessWidth) (rs1 rs2 : RegIdx) (imm : BitVec 12) (s : State) :
    Host.Outcome State Fault Refusal :=
  let ea := effectiveAddress s rs1 imm
  if accessOk s ea width.bytes then
    complete { regWrite := none, memWrite := some ⟨ea, width, readReg s rs2⟩, nextPc := seqPc s } s
  else raise .invalidMemoryAccess s

/-- LB (R201): one byte, sign-extended. -/
def execLb (rd rs1 : RegIdx) (imm : BitVec 12) (s : State) : Host.Outcome State Fault Refusal :=
  loadWith .byte signExtendLow rd rs1 imm s

/-- LH (R202): two bytes, sign-extended. -/
def execLh (rd rs1 : RegIdx) (imm : BitVec 12) (s : State) : Host.Outcome State Fault Refusal :=
  loadWith .half signExtendLow rd rs1 imm s

/-- LW (R203): four bytes, as they are. -/
def execLw (rd rs1 : RegIdx) (imm : BitVec 12) (s : State) : Host.Outcome State Fault Refusal :=
  loadWith .word zeroExtendLow rd rs1 imm s

/-- LBU (R204): one byte, zero-extended. -/
def execLbu (rd rs1 : RegIdx) (imm : BitVec 12) (s : State) : Host.Outcome State Fault Refusal :=
  loadWith .byte zeroExtendLow rd rs1 imm s

/-- LHU (R205): two bytes, zero-extended. -/
def execLhu (rd rs1 : RegIdx) (imm : BitVec 12) (s : State) : Host.Outcome State Fault Refusal :=
  loadWith .half zeroExtendLow rd rs1 imm s

/-- SB (R207): the low byte of x[rs2]. -/
def execSb (rs1 rs2 : RegIdx) (imm : BitVec 12) (s : State) : Host.Outcome State Fault Refusal :=
  storeWith .byte rs1 rs2 imm s

/-- SH (R208): the low two bytes of x[rs2]. -/
def execSh (rs1 rs2 : RegIdx) (imm : BitVec 12) (s : State) : Host.Outcome State Fault Refusal :=
  storeWith .half rs1 rs2 imm s

/-- SW (R209): the four bytes of x[rs2]. -/
def execSw (rs1 rs2 : RegIdx) (imm : BitVec 12) (s : State) : Host.Outcome State Fault Refusal :=
  storeWith .word rs1 rs2 imm s

end Sys2Proof.Machine
end

