-- ==== Sys2Proof/Machine/MExtension.lean ====
section
/-! DEFINITION. The M extension (spec/42_m_extension.md). -/

namespace Sys2Proof.Machine

/-- MUL (R163): the low word of s(x[rs1]) * s(x[rs2]). -/
def execMul (rd rs1 rs2 : RegIdx) (s : State) : Host.Outcome State Fault Refusal :=
  completeReg rd (productLow ((readReg s rs1).toInt * (readReg s rs2).toInt)) s

/-- MULH (R164): the high word of s(x[rs1]) * s(x[rs2]). -/
def execMulh (rd rs1 rs2 : RegIdx) (s : State) : Host.Outcome State Fault Refusal :=
  completeReg rd (productHigh ((readReg s rs1).toInt * (readReg s rs2).toInt)) s

/-- MULHSU (R165): the high word of s(x[rs1]) * u(x[rs2]). -/
def execMulhsu (rd rs1 rs2 : RegIdx) (s : State) : Host.Outcome State Fault Refusal :=
  completeReg rd (productHigh ((readReg s rs1).toInt * (readReg s rs2).toNat)) s

/-- MULHU (R166): the high word of u(x[rs1]) * u(x[rs2]). -/
def execMulhu (rd rs1 rs2 : RegIdx) (s : State) : Host.Outcome State Fault Refusal :=
  completeReg rd (productHigh ((readReg s rs1).toNat * (readReg s rs2).toNat)) s

/-- The common shape of DIV, DIVU, REM and REMU: a divisor of 0 raises DIVISION_BY_ZERO, whatever rd is (R161). -/
def unlessDivisorZero (rs2 : RegIdx) (s : State) (body : Host.Outcome State Fault Refusal) :
    Host.Outcome State Fault Refusal :=
  if readReg s rs2 = 0 then raise .divisionByZero s else body

/-- The overflow pair of DIV and REM: the result `v` with DIV_OVERFLOW = riscv, the model-only fault with DIV_OVERFLOW =
fault (R162). -/
def divOverflow (rd : RegIdx) (v : Word) (s : State) : Host.Outcome State Fault Refusal :=
  match s.params.divOverflow with
  | .riscv => completeReg rd v s
  | .fault => .fault (.divOverflowUnmodelled (fetchIndex s))

/-- DIV (R167): the signed quotient, rounded toward zero; 0x80000000 for the overflow pair. -/
def execDiv (rd rs1 rs2 : RegIdx) (s : State) : Host.Outcome State Fault Refusal :=
  unlessDivisorZero rs2 s
    (if divOverflowPair (readReg s rs1) (readReg s rs2) then divOverflow rd 0x80000000 s
     else completeReg rd (divSigned (readReg s rs1) (readReg s rs2)) s)

/-- DIVU (R168): the unsigned quotient. -/
def execDivu (rd rs1 rs2 : RegIdx) (s : State) : Host.Outcome State Fault Refusal :=
  unlessDivisorZero rs2 s (completeReg rd (divUnsigned (readReg s rs1) (readReg s rs2)) s)

/-- REM (R169): the remainder of the signed division, of the dividend's sign; 0 for the overflow pair. -/
def execRem (rd rs1 rs2 : RegIdx) (s : State) : Host.Outcome State Fault Refusal :=
  unlessDivisorZero rs2 s
    (if divOverflowPair (readReg s rs1) (readReg s rs2) then divOverflow rd 0 s
     else completeReg rd (remSigned (readReg s rs1) (readReg s rs2)) s)

/-- REMU (R170): the unsigned remainder. -/
def execRemu (rd rs1 rs2 : RegIdx) (s : State) : Host.Outcome State Fault Refusal :=
  unlessDivisorZero rs2 s (completeReg rd (remUnsigned (readReg s rs1) (readReg s rs2)) s)

end Sys2Proof.Machine
end

