-- ==== Sys2Proof/Machine/UpperImmediate.lean ====
section
/-! DEFINITION. The upper-immediate instructions (spec/46_upper_immediate.md). None raises an error. -/

namespace Sys2Proof.Machine

/-- LUI (R240): x[rd] <- imm20 << 12. -/
def execLui (rd : RegIdx) (imm : BitVec 20) (s : State) : Host.Outcome State Fault Refusal :=
  completeReg rd (immU imm) s

/-- AUIPC (R241): x[rd] <- pc + (imm20 << 12), pc being the address of the instruction itself. -/
def execAuipc (rd : RegIdx) (imm : BitVec 20) (s : State) : Host.Outcome State Fault Refusal :=
  completeReg rd (s.pc + immU imm) s

end Sys2Proof.Machine
end

