-- ==== Sys2Proof/Machine/Step.lean ====
section
/-! DEFINITION. One `Step()` of the engine: fetch, decode, execute (spec/40_execution_cycle.md rules R120-R126). -/

namespace Sys2Proof.Machine

/-- `Step()` (R126). The outcome it returns is the next state's `lastOutcome`. -/
def step (s : State) : Host.Outcome State Fault Refusal :=
  match fetch s with
  | none => .next (endOfProgram s)
  | some w =>
    match decode w with
    | .unsupported => raise .unsupportedOpcode s
    | .instr i => exec i s

/-- The state with one instruction word where the next step fetches: it stands for `LoadProgram`, the only way a program comes
into the engine (R28, R131; log entry 5). -/
def State.withFetchWord (s : State) (nbits w : Nat) : State :=
  { s with program := programWithWord s.program (fetchIndex s) (BitVec.ofNat 32 (w % 2 ^ nbits)) }

end Sys2Proof.Machine
end

