-- ==== Sys2Proof/Machine/Assembler.lean ====
section
/-! DEFINITION. The toolchain's assembler, spec/30_encoding.md section 8 (rules R98-R107): source lines to words. It is
surrounding software and no part of the engine (spec/00_scope.md rule R5); no step calls it. It stands here because its rules
are numbered rules of the spec and because its output is what `LoadProgram` takes (R106). A line is a list of characters. What
the rules leave open is chosen in log entry 7. -/

namespace Sys2Proof.Machine

abbrev Text := List Char

/-! ## Characters and tokens -/

/-- The white space `\s` of R98: the six ASCII characters, space, tab, newline, carriage return, vertical tab and form feed (that
no other character is white space is DESIGN CHOICE, log entry 7). -/
def isBlankChar (c : Char) : Bool :=
  c == ' ' || c == '\t' || c == '\n' || c == '\r' || c == '\x0b' || c == '\x0c'

def isLabelStart (c : Char) : Bool := ('a' ≤ c && c ≤ 'z') || c == '_'

def isDigitChar (c : Char) : Bool := '0' ≤ c && c ≤ '9'

def isWordChar (c : Char) : Bool := isLabelStart c || isDigitChar c

/-- The text without the blanks at both ends. -/
def trimBlanks (t : Text) : Text :=
  ((t.dropWhile isBlankChar).reverse.dropWhile isBlankChar).reverse

/-- A line lower-cased, without its comment from `;` on, without outer blanks (R98). -/
def cleanLine (t : Text) : Text :=
  trimBlanks ((t.map Char.toLower).takeWhile (· != ';'))

/-- The label a line defines, if it is `[a-z_][a-z0-9_]*:` and nothing else (R98). -/
def labelOf (t : Text) : Option Text :=
  match t.reverse with
  | ':' :: rest =>
    match rest.reverse with
    | c :: cs => if isLabelStart c && cs.all isWordChar then some (c :: cs) else none
    | [] => none
  | _ => none

/-- The text cut at every character `c`. -/
def splitAtChar (c : Char) : Text → List Text
  | [] => [[]]
  | d :: rest =>
    match splitAtChar c rest with
    | [] => [[d]]
    | piece :: pieces => if d == c then [] :: piece :: pieces else (d :: piece) :: pieces

/-! ## Errors and outcomes (R105, R106) -/

/-- The assembly-time error kinds (R105); the spec does not say when `invalidOpcode` is reported, and this assembler never
reports it. -/
inductive AssemblyError where
  | invalidOpcode
  | invalidOperandCount
  | invalidRegisterFormat
  | registerOutOfBounds
  | invalidImmediateFormat
  | immediateOutOfBounds
  | opcodeNotFound
  | emptyInput
  | duplicateLabelDefinition
  deriving DecidableEq, Repr

/-- Why a line does not assemble: an error with its fragment, or a literal the spec gives no meaning, a sign before `0x` or
`0b`, which a model refuses (R104). -/
inductive LineStop where
  | error (kind : AssemblyError) (fragment : Text)
  | refused (fragment : Text)
  deriving DecidableEq, Repr

/-- `ParseOutcome` (R105, R106): `lineMap` gives each word's 1-based source line; EMPTY_INPUT has no line. -/
structure ParseOutcome where
  success : Bool
  words : List Word
  lineMap : List Nat
  error : Option AssemblyError
  line : Option Nat
  fragment : Text
  deriving DecidableEq, Repr

/-- What a pass gives: an outcome, or no meaning. -/
inductive Assembled where
  | outcome (o : ParseOutcome)
  | refused (line : Nat) (fragment : Text)
  deriving DecidableEq, Repr

/-! ## Operands (R102-R104) -/

/-- The value of a digit in a base, if it is one. -/
def digitValue (base : Nat) (c : Char) : Option Nat :=
  let v :=
    if isDigitChar c then c.toNat - '0'.toNat
    else if 'a' ≤ c && c ≤ 'f' then c.toNat - 'a'.toNat + 10
    else 36
  if v < base then some v else none

def digitsFrom (base : Nat) : Nat → Text → Option Nat
  | acc, [] => some acc
  | acc, c :: rest => (digitValue base c).bind fun v => digitsFrom base (acc * base + v) rest

/-- A non-empty run of digits. -/
def digits (base : Nat) (t : Text) : Option Nat :=
  match t with
  | [] => none
  | _ => digitsFrom base 0 t

/-- `x` followed by a decimal index of at most 31 (R103). -/
def parseRegister (t : Text) : Except LineStop RegIdx :=
  match t with
  | 'x' :: rest =>
    match digits 10 rest with
    | some n => if n ≤ 31 then .ok (BitVec.ofNat 5 n) else .error (.error .registerOutOfBounds t)
    | none => .error (.error .invalidRegisterFormat t)
  | _ => .error (.error .invalidRegisterFormat t)

/-- A literal's value: decimal, with a minus sign or not, or `0x` or `0b` read as a non-negative value; a sign, `-` or `+`, before
`0x` or `0b` is refused (R104). That a `+` before a decimal literal is malformed is DESIGN CHOICE (log entry 7). -/
def parseLiteral (t : Text) : Except LineStop Int :=
  let unsigned (base : Nat) (ds : Text) : Except LineStop Int :=
    match digits base ds with
    | some n => .ok n
    | none => .error (.error .invalidImmediateFormat t)
  match t with
  | '-' :: '0' :: 'x' :: _ => .error (.refused t)
  | '-' :: '0' :: 'b' :: _ => .error (.refused t)
  | '+' :: '0' :: 'x' :: _ => .error (.refused t)
  | '+' :: '0' :: 'b' :: _ => .error (.refused t)
  | '-' :: ds => (unsigned 10 ds).map (fun v => -v)
  | '0' :: 'x' :: ds => unsigned 16 ds
  | '0' :: 'b' :: ds => unsigned 2 ds
  | ds => unsigned 10 ds

/-- A literal within the slot's bounds (R102, R104). -/
def parseImmediate (low high : Int) (t : Text) : Except LineStop Int :=
  match parseLiteral t with
  | .ok v => if low ≤ v && v ≤ high then .ok v else .error (.error .immediateOutOfBounds t)
  | .error e => .error e

/-- The low 12 bits of a 12-bit signed operand. -/
def operand12 (t : Text) : Except LineStop (BitVec 12) := (parseImmediate (-2048) 2047 t).map (BitVec.ofInt 12)

/-- A 5-bit unsigned shift amount. -/
def operandShamt (t : Text) : Except LineStop (BitVec 5) := (parseImmediate 0 31 t).map (BitVec.ofInt 5)

/-- The low 20 bits of a 20-bit signed operand (R102). -/
def operand20 (t : Text) : Except LineStop (BitVec 20) := (parseImmediate (-524288) 524287 t).map (BitVec.ofInt 20)

/-- A displacement with its bit 0 dropped, since the word does not encode it (R104). -/
def evenBits (n : Nat) (v : Int) : BitVec n := BitVec.ofInt n (v - v % 2)

/-- A 13-bit signed displacement (R102, R104). -/
def operand13 (t : Text) : Except LineStop (BitVec 13) := (parseImmediate (-4096) 4095 t).map (evenBits 13)

/-- A 21-bit signed displacement (R102, R104). -/
def operand21 (t : Text) : Except LineStop (BitVec 21) := (parseImmediate (-1048576) 1048575 t).map (evenBits 21)

/-- The operand shapes of R102, each with the instruction it builds. -/
inductive Shape where
  /-- `op rd, rs1, rs2` -/
  | register (mk : RegIdx → RegIdx → RegIdx → Instr)
  /-- `op rd, rs1, imm` -/
  | immediate (mk : RegIdx → RegIdx → BitVec 12 → Instr)
  /-- `op rd, rs1, shamt` -/
  | shift (mk : RegIdx → RegIdx → BitVec 5 → Instr)
  /-- `op reg, imm(rs1)`: the register is rd of a load or JALR, rs2 of a store -/
  | based (mk : RegIdx → RegIdx → BitVec 12 → Instr)
  /-- `op rs1, rs2, offset` -/
  | branch (mk : RegIdx → RegIdx → BitVec 13 → Instr)
  /-- `jal rd, offset` -/
  | jump (mk : RegIdx → BitVec 21 → Instr)
  /-- `op rd, imm` -/
  | upper (mk : RegIdx → BitVec 20 → Instr)

def shapesRegister : List (String × Shape) :=
  [ ("add", .register .add), ("sub", .register .sub), ("sll", .register .sll), ("slt", .register .slt),
    ("sltu", .register .sltu), ("xor", .register .xor), ("srl", .register .srl), ("sra", .register .sra),
    ("or", .register .or), ("and", .register .and), ("mul", .register .mul), ("mulh", .register .mulh),
    ("mulhsu", .register .mulhsu), ("mulhu", .register .mulhu), ("div", .register .div), ("divu", .register .divu),
    ("rem", .register .rem), ("remu", .register .remu) ]

def shapesImmediate : List (String × Shape) :=
  [ ("addi", .immediate .addi), ("slti", .immediate .slti), ("sltiu", .immediate .sltiu), ("xori", .immediate .xori),
    ("ori", .immediate .ori), ("andi", .immediate .andi), ("slli", .shift .slli), ("srli", .shift .srli),
    ("srai", .shift .srai), ("lui", .upper .lui), ("auipc", .upper .auipc) ]

def shapesBased : List (String × Shape) :=
  [ ("lb", .based .lb), ("lh", .based .lh), ("lw", .based .lw), ("lbu", .based .lbu), ("lhu", .based .lhu),
    ("sb", .based fun r b i => .sb b r i), ("sh", .based fun r b i => .sh b r i), ("sw", .based fun r b i => .sw b r i),
    ("jalr", .based .jalr) ]

def shapesControl : List (String × Shape) :=
  [ ("beq", .branch .beq), ("bne", .branch .bne), ("blt", .branch .blt), ("bge", .branch .bge), ("bltu", .branch .bltu),
    ("bgeu", .branch .bgeu), ("jal", .jump .jal) ]

/-- The mnemonic tables: exactly the 45 instructions, no pseudo-instruction (R107). -/
def shapes : List (String × Shape) := shapesRegister ++ shapesImmediate ++ shapesBased ++ shapesControl

def shapeOf (mnemonic : Text) : Option Shape :=
  (shapes.find? fun e => e.1.toList == mnemonic).map (·.2)

/-- The instruction of a shape and its operands; `whole` is the line, the fragment of a wrong operand count. Where a line has
several errors the spec does not say which is reported: the operand count is checked first and then the operands from left to
right, and the first that fails is reported (DESIGN CHOICE, log entry 7). -/
def buildInstr (shape : Shape) (whole : Text) (operands : List Text) : Except LineStop Instr :=
  match shape, operands with
  | .register mk, [a, b, c] => do return mk (← parseRegister a) (← parseRegister b) (← parseRegister c)
  | .immediate mk, [a, b, c] => do return mk (← parseRegister a) (← parseRegister b) (← operand12 c)
  | .shift mk, [a, b, c] => do return mk (← parseRegister a) (← parseRegister b) (← operandShamt c)
  | .based mk, [a, b, c] => do
    let r ← parseRegister a
    let i ← operand12 b
    let base ← parseRegister c
    return mk r base i
  | .branch mk, [a, b, c] => do return mk (← parseRegister a) (← parseRegister b) (← operand13 c)
  | .jump mk, [a, b] => do return mk (← parseRegister a) (← operand21 b)
  | .upper mk, [a, b] => do return mk (← parseRegister a) (← operand20 b)
  | _, _ => .error (.error .invalidOperandCount whole)

/-! ## Lines (R98-R101) -/

/-- A code line: its 1-based source line and its text. -/
structure CodeLine where
  number : Nat
  text : Text
  deriving DecidableEq, Repr

/-- What the first pass gives: the code lines in order and the labels with their addresses, the last defined first. -/
structure Scan where
  code : List CodeLine
  labels : List (Text × Nat)
  deriving DecidableEq, Repr

/-- A label's address: 4 x the number of code lines before it (R99). -/
def labelAddress (labels : List (Text × Nat)) (name : Text) : Option Nat :=
  (labels.find? fun l => l.1 == name).map (·.2)

/-- The first pass over the lines from source line `number` on: blank, comment-only and label-only lines consume no address;
a second definition of a label is an error at its line (R99). -/
def scanLines : Nat → List Text → Scan → Except (Nat × Text) Scan
  | _, [], acc => .ok acc
  | number, t :: rest, acc =>
    let line := cleanLine t
    if line = [] then scanLines (number + 1) rest acc
    else
      match labelOf line with
      | some name =>
        if (labelAddress acc.labels name).isSome then .error (number, line)
        else scanLines (number + 1) rest { acc with labels := (name, 4 * acc.code.length) :: acc.labels }
      | none => scanLines (number + 1) rest { acc with code := acc.code ++ [⟨number, line⟩] }

/-- The signed decimal number as text. -/
def signedDecimal (v : Int) : Text :=
  if v < 0 then '-' :: Nat.toDigits 10 v.natAbs else Nat.toDigits 10 v.natAbs

/-- A whole word replaced by its displacement from `address`, if it is a known label (R100). -/
def substituteWord (labels : List (Text × Nat)) (address : Nat) (word : Text) : Text :=
  match labelAddress labels word with
  | some target => signedDecimal ((target : Int) - (address : Int))
  | none => word

/-- Every whole-word occurrence of a known label replaced; `word` is the word being read, reversed (R100). -/
def substituteLabels (labels : List (Text × Nat)) (address : Nat) (word : Text) : Text → Text
  | [] => substituteWord labels address word.reverse
  | c :: rest =>
    if isWordChar c then substituteLabels labels address (c :: word) rest
    else substituteWord labels address word.reverse ++ c :: substituteLabels labels address [] rest

/-- `(` turned into `,` and `)` deleted (R101). -/
def normaliseBase (t : Text) : Text :=
  (t.filter (· != ')')).map fun c => if c == '(' then ',' else c

/-- The operands of the text after the mnemonic, cut at commas; none where nothing stands there. -/
def operandsOf (t : Text) : List Text :=
  if trimBlanks t = [] then [] else (splitAtChar ',' t).map trimBlanks

/-- One code line at byte address `address` to its instruction (R98-R107). The mnemonic and the operands, and so the fragment an
error reports (but for a wrong operand count, which reports `line`), are taken after label substitution and normalisation: where
a label stood the fragment has the number, not the label. A mnemonic is looked up before any operand is read. The spec does not
say which text is the fragment there (DESIGN CHOICE, log entry 7). -/
def assembleLine (labels : List (Text × Nat)) (address : Nat) (line : Text) : Except LineStop Instr :=
  let t := normaliseBase (substituteLabels labels address [] line)
  let mnemonic := t.takeWhile (fun c => !isBlankChar c)
  match shapeOf mnemonic with
  | some shape => buildInstr shape line (operandsOf (t.drop mnemonic.length))
  | none => .error (.error .opcodeNotFound mnemonic)

/-- The second pass: code line k is assembled at address 4k, and the first failure ends it (R99, R105). -/
def assembleFrom (labels : List (Text × Nat)) : Nat → List CodeLine → Except (Nat × LineStop) (List Word)
  | _, [] => .ok []
  | k, l :: rest =>
    match assembleLine labels (4 * k) l.text with
    | .error e => .error (l.number, e)
    | .ok i =>
      match assembleFrom labels (k + 1) rest with
      | .error e => .error e
      | .ok words => .ok (encode i :: words)

/-- The outcome of a failed pass. -/
def failedOutcome (kind : AssemblyError) (line : Option Nat) (fragment : Text) : ParseOutcome where
  success := false
  words := []
  lineMap := []
  error := some kind
  line := line
  fragment := fragment

/-- The assembler (R98-R107). The spec does not rank EMPTY_INPUT and DUPLICATE_LABEL_DEFINITION: an input of label lines only that
defines a label twice meets both, and the duplicate, which the first pass finds, is reported (DESIGN CHOICE, log entry 7). -/
def assemble (lines : List Text) : Assembled :=
  match scanLines 1 lines ⟨[], []⟩ with
  | .error (n, t) => .outcome (failedOutcome .duplicateLabelDefinition (some n) t)
  | .ok scan =>
    if scan.code = [] then .outcome (failedOutcome .emptyInput none [])
    else
      match assembleFrom scan.labels 0 scan.code with
      | .error (n, .error kind fragment) => .outcome (failedOutcome kind (some n) fragment)
      | .error (n, .refused fragment) => .refused n fragment
      | .ok words =>
        .outcome
          { success := true, words := words, lineMap := scan.code.map (·.number), error := none, line := none, fragment := [] }

end Sys2Proof.Machine
end

