-- ==== Sys2Proof/Machine/HostCommands.lean ====
section
/-! DEFINITION. The host interface: the commands of spec/40_execution_cycle.md rule R128, each one whole transition between
two Steps (R129), the launch sequence (spec/70_reset_and_hazards.md rule R282) and the run to the first outcome that is not
success (R130). -/

namespace Sys2Proof.Machine

/-- `LoadProgram(words)`: P and L, and nothing else; more than 2^30 words are refused (R6, R131). -/
def loadProgram (words : List Word) (s : State) : Host.Outcome State Fault Refusal :=
  if words.length ≤ maxProgramWords then .next { s with program := words } else .refused .programTooLong

/-- `Reset()`: all 33 slots and every memory byte become 0; MEM_WORDS, P and L are unchanged (R280). It returns nothing, so no
outcome stands after it. -/
def resetEngine (s : State) : State :=
  { (errorReset s).setMem [] with lastOutcome := none }

/-- `resize(newSize)`, in words: content is kept up to the smaller size and growth is zero-filled (R52). -/
def resizeMemory (newWords : Nat) (s : State) : State :=
  { s.setMem (s.mem.filter fun c => decide (c.1 < 4 * newWords)) with memWords := newWords }

/-- What `GetStatus()` returns (R31). -/
structure Status where
  registers : Vector Word 32
  pc : Word
  deriving DecidableEq, Repr

/-- `GetStatus()`: the registers x0 .. x31, x0 reading 0, and the pc (R31). -/
def getStatus (s : State) : Status where
  registers := Vector.ofFn fun i => readReg s (BitVec.ofFin i)
  pc := s.pc

/-- The host commands (R128). -/
inductive Command where
  | loadProgram (words : List Word)
  | reset
  | step
  | getStatus
  | resize (newWords : Nat)
  deriving DecidableEq, Repr

/-- The transition a command makes; what `step` returns is then in `lastOutcome`, and what `getStatus` returns is
`getStatus` of the state, which it leaves as it is. -/
def runCommand (c : Command) (s : State) : Host.Outcome State Fault Refusal :=
  match c with
  | .loadProgram words => loadProgram words s
  | .reset => .next (resetEngine s)
  | .step => step s
  | .getStatus => .next s
  | .resize newWords => .next (resizeMemory newWords s)

/-- The launch: `LoadProgram` followed by `Reset()` (R131, R282). -/
def launch (words : List Word) (s : State) : Host.Outcome State Fault Refusal :=
  match loadProgram words s with
  | .next t => .next (resetEngine t)
  | .fault f => .fault f
  | .refused r => .refused r

/-- The last Step's outcome was not success: the run has ended (R130). -/
def runEnded (s : State) : Bool :=
  match s.lastOutcome with
  | some o => !o.success
  | none => false

/-- At most k Steps, ended by the first outcome that is not success (R130, R282). -/
def runSteps : Nat → State → Host.Outcome State Fault Refusal
  | 0, s => .next s
  | k + 1, s =>
    match step s with
    | .next t => if runEnded t then .next t else runSteps k t
    | .fault f => .fault f
    | .refused r => .refused r

end Sys2Proof.Machine
end

