-- ==== Sys2Proof/Safety.lean ====
section
/-! DEFINITION. What claims about runs of the engine are stated with: the states the engine can be in, the outcomes a Step can
report, and how a run ends (spec/10_state.md rule R24, spec/20_memory.md rule R51, spec/40_execution_cycle.md rules R127,
R130, spec/60_exceptions.md rules R250-R253). -/

namespace Sys2Proof.Machine

/-- The states of the engine: the memory is in canonical form and every listed byte lies below MEM_BYTES (R51), the pc is a
multiple of 4 (R24), the slot of x0 holds 0 (R21), and the program has at most 2^30 words (R6). -/
structure State.Inv (s : State) : Prop where
  memoryCanonical : s.mem.wf
  memoryInBounds : ∀ c ∈ s.mem, c.1 < memBytes s
  pcAligned : s.pc.toNat % 4 = 0
  zeroSlot : s.regs[0] = 0
  programFits : s.program.length ≤ maxProgramWords

/-- The outcomes a Step can report (R126, R127, R252): success goes with NONE, no failing index and, at most, one register or
one memory change; any other outcome has a failing index and no change, and its kind is never INVALID_REGISTER. -/
def StepOutcome.wellFormed (o : StepOutcome) : Prop :=
  (o.success = true ∧ o.error = .none ∧ o.failIndex = none ∧ (o.memChange = none ∨ o.regChange = none)) ∨
  (o.success = false ∧ o.error ≠ .none ∧ o.error ≠ .invalidRegister ∧ o.failIndex.isSome = true ∧
    o.memChange = none ∧ o.regChange = none)

/-- The run ended normally: the last Step reported PC_OUT_OF_BOUNDS (R130, R253). -/
def endedNormally (s : State) : Prop :=
  ∃ o, s.lastOutcome = some o ∧ o.success = false ∧ o.error = .pcOutOfBounds

/-- The run ended in an execution error other than PC_OUT_OF_BOUNDS (R130, R256). -/
def endedInError (s : State) : Prop :=
  ∃ o, s.lastOutcome = some o ∧ o.success = false ∧ o.error ≠ .pcOutOfBounds

/-- A safe step: the engine goes on with a successful instruction. -/
def stepsSafely (s : State) : Prop :=
  ∃ t, step s = .next t ∧ runEnded t = false

end Sys2Proof.Machine
end

