-- ==== Sys2Proof/Certificates/Slice0/Obligations.lean ====
section
/-! DEFINITION. The statements for the provers, and before them the shapes several of them share. Arithmetic results are said
in integers: `u(v)` is `toNat`, `s(v)` is `toInt`, and `/` and `%` of integers by a positive number are the floor quotient and
its remainder. -/

open Sys2Proof Sys2Proof.Machine

namespace Sys2Proof.Claims

/-! ## Shapes of an effect -/

/-- What no instruction changes: the memory size, the instruction stream and the parameters. -/
def KeepsMachine (s t : State) : Prop :=
  t.memWords = s.memWords ∧ t.program = s.program ∧ t.params = s.params

/-- Every byte of memory reads as before. -/
def KeepsMemory (s t : State) : Prop := ∀ a, Memory.readByte t.mem a = Memory.readByte s.mem a

/-- From s to t: `v` is written to rd unless rd is x0, which reads 0; every other register and every byte of memory is
unchanged; the pc becomes `pc'`. -/
structure WritesReg (s t : State) (rd : RegIdx) (v pc' : Word) : Prop where
  destination : readReg t rd = if rd = 0 then 0 else v
  others : ∀ r, r ≠ rd → readReg t r = readReg s r
  pc : t.pc = pc'
  memory : KeepsMemory s t
  machine : KeepsMachine s t

/-- From s to t: no register and no byte of memory changes; the pc becomes `pc'`. -/
structure WritesPcOnly (s t : State) (pc' : Word) : Prop where
  registers : ∀ r, readReg t r = readReg s r
  pc : t.pc = pc'
  memory : KeepsMemory s t
  machine : KeepsMachine s t

/-- From s to t: the error reset after error `e` (R256): registers and pc 0, memory, its size and the program kept, and the
outcome that names the instruction by its index. -/
structure ErrorResets (s t : State) (e : ExecutionError) : Prop where
  registers : ∀ r, readReg t r = 0
  pc : t.pc = 0
  memory : KeepsMemory s t
  machine : KeepsMachine s t
  outcome : t.lastOutcome = some ⟨false, e, none, none, 0, some (s.pc.toNat / 4)⟩

/-! ## Rules of one instruction -/

/-- An R-type rule: every word with the pattern is the instruction, whatever its register fields, and the instruction completes
in every state with a result that stands in the relation `result` to x[rs1] and x[rs2]. -/
def RegisterRule (mk : RegIdx → RegIdx → RegIdx → Instr) (pattern : Word) (result : Word → Word → Word → Prop) : Prop :=
  (∀ w : Word, w &&& 0xFE00707F = pattern →
    decode w = .instr (mk (w.extractLsb' 7 5) (w.extractLsb' 15 5) (w.extractLsb' 20 5))) ∧
  ∀ rd rs1 rs2 s, ∃ t v, exec (mk rd rs1 rs2) s = .next t ∧ WritesReg s t rd v (s.pc + 4) ∧
    result (readReg s rs1) (readReg s rs2) v

/-- An I-type rule with a 12-bit immediate. -/
def ImmediateRule (mk : RegIdx → RegIdx → BitVec 12 → Instr) (pattern : Word) (result : Word → BitVec 12 → Word → Prop) :
    Prop :=
  (∀ w : Word, w &&& 0x0000707F = pattern →
    decode w = .instr (mk (w.extractLsb' 7 5) (w.extractLsb' 15 5) (w.extractLsb' 20 12))) ∧
  ∀ rd rs1 imm s, ∃ t v, exec (mk rd rs1 imm) s = .next t ∧ WritesReg s t rd v (s.pc + 4) ∧ result (readReg s rs1) imm v

/-- An I-type shift rule. -/
def ShiftRule (mk : RegIdx → RegIdx → BitVec 5 → Instr) (pattern : Word) (result : Word → Nat → Word → Prop) : Prop :=
  (∀ w : Word, w &&& 0xFE00707F = pattern →
    decode w = .instr (mk (w.extractLsb' 7 5) (w.extractLsb' 15 5) (w.extractLsb' 20 5))) ∧
  ∀ rd rs1 shamt s, ∃ t v, exec (mk rd rs1 shamt) s = .next t ∧ WritesReg s t rd v (s.pc + 4) ∧
    result (readReg s rs1) shamt.toNat v

/-- A divide or remainder rule where the divisor is not 0 and the operands are not the signed overflow pair, if the instruction
has one. -/
def DivideRule (mk : RegIdx → RegIdx → RegIdx → Instr) (pattern : Word) (regular : Word → Word → Prop)
    (result : Word → Word → Word → Prop) : Prop :=
  (∀ w : Word, w &&& 0xFE00707F = pattern →
    decode w = .instr (mk (w.extractLsb' 7 5) (w.extractLsb' 15 5) (w.extractLsb' 20 5))) ∧
  ∀ rd rs1 rs2 s, readReg s rs2 ≠ 0 → regular (readReg s rs1) (readReg s rs2) →
    ∃ t v, exec (mk rd rs1 rs2) s = .next t ∧ WritesReg s t rd v (s.pc + 4) ∧
      result (readReg s rs1) (readReg s rs2) v

/-- The access check of R44, in integers. With MEM_BYTES above 2^32 an access that begins just below 2^32 fits, and its bytes count
on beyond 2^32 without wrap: the model's choice (log entry 12). With MEM_BYTES above 2^32 - 2048 an address that came from a
negative sum can fit: the model's choice too (log entry 13). -/
def AccessFits (s : State) (ea : Word) (n : Nat) : Prop :=
  ea.toNat + n ≤ 4 * s.memWords ∧ (s.params.misalignedData = .splitLe ∨ ea.toNat % n = 0)

/-- A load rule: where the access fits it completes with a value that stands in the relation `value` to the n bytes at the
effective address, byte 0 at the lowest address; where it does not, it raises INVALID_MEMORY_ACCESS, for every rd. -/
def LoadRule (mk : RegIdx → RegIdx → BitVec 12 → Instr) (pattern : Word) (n : Nat) (value : (Nat → Byte) → Word → Prop) :
    Prop :=
  (∀ w : Word, w &&& 0x0000707F = pattern →
    decode w = .instr (mk (w.extractLsb' 7 5) (w.extractLsb' 15 5) (w.extractLsb' 20 12))) ∧
  ∀ rd rs1 imm s,
    (AccessFits s (effectiveAddress s rs1 imm) n →
      ∃ t v, exec (mk rd rs1 imm) s = .next t ∧ WritesReg s t rd v (s.pc + 4) ∧
        value (fun k => Memory.readByte s.mem ((effectiveAddress s rs1 imm).toNat + k)) v) ∧
    (¬ AccessFits s (effectiveAddress s rs1 imm) n →
      ∃ t, exec (mk rd rs1 imm) s = .next t ∧ ErrorResets s t .invalidMemoryAccess)

/-- From s to t: the n low bytes of `v` are stored from byte address `a` on, the lowest first; every byte outside them and every
register is unchanged, the pc advances by 4, and the outcome reports the address and the stored value. -/
structure StoresBytes (s t : State) (a : Word) (n : Nat) (v : Word) : Prop where
  stored : ∀ k, k < n → Memory.readByte t.mem (a.toNat + k) = v.extractLsb' (8 * k) 8
  others : ∀ b, (b < a.toNat ∨ a.toNat + n ≤ b) → Memory.readByte t.mem b = Memory.readByte s.mem b
  registers : ∀ r, readReg t r = readReg s r
  pc : t.pc = s.pc + 4
  machine : KeepsMachine s t
  outcome : t.lastOutcome =
    some ⟨true, .none, some ⟨a, BitVec.ofNat 32 (v.toNat % 2 ^ (8 * n))⟩, none, s.pc + 4, none⟩

/-- A store rule. -/
def StoreRule (mk : RegIdx → RegIdx → BitVec 12 → Instr) (pattern : Word) (n : Nat) : Prop :=
  (∀ w : Word, w &&& 0x0000707F = pattern →
    decode w = .instr (mk (w.extractLsb' 15 5) (w.extractLsb' 20 5) (w.extractLsb' 25 7 ++ w.extractLsb' 7 5))) ∧
  ∀ rs1 rs2 imm s,
    (AccessFits s (effectiveAddress s rs1 imm) n →
      ∃ t, exec (mk rs1 rs2 imm) s = .next t ∧ StoresBytes s t (effectiveAddress s rs1 imm) n (readReg s rs2)) ∧
    (¬ AccessFits s (effectiveAddress s rs1 imm) n →
      ∃ t, exec (mk rs1 rs2 imm) s = .next t ∧ ErrorResets s t .invalidMemoryAccess)

/-- `a + d` modulo 2^32 for a signed displacement d. -/
def Displaced (a : Word) (d : Int) (r : Word) : Prop := (r.toNat : Int) = ((a.toNat : Int) + d) % 2 ^ 32

/-- A branch rule: a displacement that is no multiple of 4 raises, taken or not; otherwise the branch completes and goes where
the condition says. -/
def BranchRule (mk : RegIdx → RegIdx → BitVec 13 → Instr) (pattern : Word) (taken : Word → Word → Prop) : Prop :=
  (∀ w : Word, w &&& 0x0000707F = pattern →
    decode w = .instr (mk (w.extractLsb' 15 5) (w.extractLsb' 20 5)
      (w.extractLsb' 31 1 ++ w.extractLsb' 7 1 ++ w.extractLsb' 25 6 ++ w.extractLsb' 8 4 ++ 0#1))) ∧
  ∀ rs1 rs2 imm s,
    (imm.toInt % 4 = 0 → taken (readReg s rs1) (readReg s rs2) →
      ∃ t target, exec (mk rs1 rs2 imm) s = .next t ∧ WritesPcOnly s t target ∧ Displaced s.pc imm.toInt target) ∧
    (imm.toInt % 4 = 0 → ¬ taken (readReg s rs1) (readReg s rs2) →
      ∃ t, exec (mk rs1 rs2 imm) s = .next t ∧ WritesPcOnly s t (s.pc + 4)) ∧
    (imm.toInt % 4 ≠ 0 → ∃ t, exec (mk rs1 rs2 imm) s = .next t ∧ ErrorResets s t .offsetNot32BitAligned)

/-- A store followed by a load of the same width at the same address: both complete, and the load's value stands in the relation
`value` to what was stored. -/
def StoreThenLoad (store : RegIdx → RegIdx → BitVec 12 → Instr) (load : RegIdx → RegIdx → BitVec 12 → Instr) (n : Nat)
    (value : Word → Word → Prop) : Prop :=
  ∀ rd rs1 rs2 imm s, AccessFits s (effectiveAddress s rs1 imm) n →
    ∃ t u v, exec (store rs1 rs2 imm) s = .next t ∧ exec (load rd rs1 imm) t = .next u ∧ WritesReg t u rd v (t.pc + 4) ∧
      value (readReg s rs2) v

/-- The instruction the next step runs. -/
def Runs (s : State) (i : Instr) : Prop := ∃ w, fetch s = some w ∧ decode w = .instr i

/-- The signed overflow pair of R162. -/
def OverflowPair (a b : Word) : Prop := a = 0x80000000 ∧ b = 0xFFFFFFFF

/-- States that differ at most in the last outcome. -/
def AgreeButOutcome (s t : State) : Prop :=
  s.regs = t.regs ∧ s.pc = t.pc ∧ s.mem = t.mem ∧ s.memWords = t.memWords ∧ s.program = t.program ∧ s.params = t.params

end Sys2Proof.Claims

open Sys2Proof.Claims

/-! ## Register-register instructions -/

/-- ADD and SUB wrap modulo 2^32 (R142, R143); their encodings are the source's own. That the pc wraps from 0xFFFFFFFC to 0 is
the spec's decision D6 (log entry 8). -/
def Obligations.AddAndSubWrap : Prop :=
  RegisterRule .add 0x00000033 (fun a b v => v.toNat = (a.toNat + b.toNat) % 2 ^ 32) ∧
  RegisterRule .sub 0x40000033 (fun a b v => (v.toNat : Int) = ((a.toNat : Int) - (b.toNat : Int)) % 2 ^ 32)

/-- SLL, SRL and SRA shift by the low five bits of x[rs2] (the spec's decision D10; funct3 values marked general knowledge). -/
def Obligations.RegisterShiftsUseFiveBits : Prop :=
  RegisterRule .sll 0x00001033 (fun a b v => v.toNat = a.toNat * 2 ^ (b.toNat % 32) % 2 ^ 32) ∧
  RegisterRule .srl 0x00005033 (fun a b v => v.toNat = a.toNat / 2 ^ (b.toNat % 32)) ∧
  RegisterRule .sra 0x40005033 (fun a b v => v.toInt = a.toInt / 2 ^ (b.toNat % 32))

/-- SLT compares signed, SLTU unsigned (funct3 values marked general knowledge). -/
def Obligations.SetLessThanSignedAndUnsigned : Prop :=
  RegisterRule .slt 0x00002033 (fun a b v => v = if a.toInt < b.toInt then 1 else 0) ∧
  RegisterRule .sltu 0x00003033 (fun a b v => v = if a.toNat < b.toNat then 1 else 0)

/-- XOR, OR and AND work bit by bit (funct3 values marked general knowledge). -/
def Obligations.RegisterLogicIsBitwise : Prop :=
  RegisterRule .xor 0x00004033 (fun a b v => ∀ k, k < 32 → v.getLsbD k = (a.getLsbD k != b.getLsbD k)) ∧
  RegisterRule .or 0x00006033 (fun a b v => ∀ k, k < 32 → v.getLsbD k = (a.getLsbD k || b.getLsbD k)) ∧
  RegisterRule .and 0x00007033 (fun a b v => ∀ k, k < 32 → v.getLsbD k = (a.getLsbD k && b.getLsbD k))

/-! ## The M extension -/

/-- MUL, MULH, MULHSU and MULHU keep the low or the high 32 bits of the exact product (funct3 values and MULHSU's signed operand
marked general knowledge). -/
def Obligations.ProductsAreExact : Prop :=
  RegisterRule .mul 0x02000033 (fun a b v => (v.toNat : Int) = a.toInt * b.toInt % 2 ^ 32) ∧
  RegisterRule .mulh 0x02001033 (fun a b v => v.toInt = a.toInt * b.toInt / 2 ^ 32) ∧
  RegisterRule .mulhsu 0x02002033 (fun a b v => v.toInt = a.toInt * (b.toNat : Int) / 2 ^ 32) ∧
  RegisterRule .mulhu 0x02003033 (fun a b v => v.toNat = a.toNat * b.toNat / 2 ^ 32)

/-- DIV rounds toward zero and REM takes the sign of the dividend, the divisor not 0 and the operands not the overflow pair
(funct3 values and the rounding marked general knowledge). -/
def Obligations.SignedDivisionRoundsTowardZero : Prop :=
  DivideRule .div 0x02004033 (fun a b => ¬ OverflowPair a b) (fun a b v => v.toInt = a.toInt.tdiv b.toInt) ∧
  DivideRule .rem 0x02006033 (fun a b => ¬ OverflowPair a b) (fun a b v => v.toInt = a.toInt.tmod b.toInt)

/-- DIVU and REMU are the floor quotient and its remainder, the divisor not 0 (funct3 values marked general knowledge). -/
def Obligations.UnsignedDivision : Prop :=
  DivideRule .divu 0x02005033 (fun _ _ => True) (fun a b v => v.toNat = a.toNat / b.toNat) ∧
  DivideRule .remu 0x02007033 (fun _ _ => True) (fun a b v => v.toNat = a.toNat % b.toNat)

/-- The overflow pair (the spec's decision D11): with DIV_OVERFLOW = riscv DIV gives 0x80000000 and REM gives 0; with
DIV_OVERFLOW = fault both stop in the model-only fault that names the instruction's index. -/
def Obligations.SignedDivisionOverflow : Prop :=
  ∀ rd rs1 rs2 s, OverflowPair (readReg s rs1) (readReg s rs2) →
    (s.params.divOverflow = .riscv →
      (∃ t, exec (.div rd rs1 rs2) s = .next t ∧ WritesReg s t rd 0x80000000 (s.pc + 4)) ∧
      (∃ t, exec (.rem rd rs1 rs2) s = .next t ∧ WritesReg s t rd 0 (s.pc + 4))) ∧
    (s.params.divOverflow = .fault →
      exec (.div rd rs1 rs2) s = .fault (.divOverflowUnmodelled (s.pc.toNat / 4)) ∧
      exec (.rem rd rs1 rs2) s = .fault (.divOverflowUnmodelled (s.pc.toNat / 4)))

/-- A divisor of 0 raises DIVISION_BY_ZERO for each of the four, whatever rd is: the error reset, rd cleared with every other
register (R161, R256; that memory is kept and what the outcome holds are decisions D14, D15). -/
def Obligations.DivisionByZeroResets : Prop :=
  ∀ rd rs1 rs2 s, readReg s rs2 = 0 →
    ∀ i, i = .div rd rs1 rs2 ∨ i = .divu rd rs1 rs2 ∨ i = .rem rd rs1 rs2 ∨ i = .remu rd rs1 rs2 →
      ∃ t, exec i s = .next t ∧ ErrorResets s t .divisionByZero

/-- Dividend = quotient x divisor + remainder for the results of DIV and REM, and of DIVU and REMU, with the remainder below the
divisor and, for DIV and REM, of the dividend's sign (the law the spec derives in R171). -/
def Obligations.QuotientAndRemainderRebuildDividend : Prop :=
  ∀ rd rs1 rs2 s, readReg s rs2 ≠ 0 →
    (¬ OverflowPair (readReg s rs1) (readReg s rs2) →
      ∃ tq tr q r, exec (.div rd rs1 rs2) s = .next tq ∧ WritesReg s tq rd q (s.pc + 4) ∧
        exec (.rem rd rs1 rs2) s = .next tr ∧ WritesReg s tr rd r (s.pc + 4) ∧
        (readReg s rs1).toInt = q.toInt * (readReg s rs2).toInt + r.toInt ∧
        r.toInt.natAbs < (readReg s rs2).toInt.natAbs ∧
        (0 < r.toInt → 0 < (readReg s rs1).toInt) ∧ (r.toInt < 0 → (readReg s rs1).toInt < 0)) ∧
    (∃ tq tr q r, exec (.divu rd rs1 rs2) s = .next tq ∧ WritesReg s tq rd q (s.pc + 4) ∧
        exec (.remu rd rs1 rs2) s = .next tr ∧ WritesReg s tr rd r (s.pc + 4) ∧
        (readReg s rs1).toNat = q.toNat * (readReg s rs2).toNat + r.toNat ∧ r.toNat < (readReg s rs2).toNat)

/-! ## Register-immediate and upper-immediate instructions -/

/-- ADDI adds the sign-extended immediate modulo 2^32 (R181); its encoding is the source's own. That the pc wraps from 0xFFFFFFFC
to 0 is the spec's decision D6 (log entry 8). -/
def Obligations.AddImmediateWraps : Prop :=
  ImmediateRule .addi 0x00000013 (fun a imm v => Displaced a imm.toInt v)

/-- SLTI and SLTIU: the immediate is sign-extended for both, and SLTIU then reads it unsigned (funct3 values marked general
knowledge). -/
def Obligations.SetLessThanImmediate : Prop :=
  ImmediateRule .slti 0x00002013 (fun a imm v => v = if a.toInt < imm.toInt then 1 else 0) ∧
  ImmediateRule .sltiu 0x00003013 (fun a imm v => v = if (a.toNat : Int) < imm.toInt % 2 ^ 32 then 1 else 0)

/-- XORI, ORI and ANDI work bit by bit on the sign-extended immediate (funct3 values marked general knowledge). -/
def Obligations.ImmediateLogicIsBitwise : Prop :=
  ImmediateRule .xori 0x00004013 (fun a imm v => ∀ k, k < 32 → v.getLsbD k = (a.getLsbD k != imm.getLsbD (min k 11))) ∧
  ImmediateRule .ori 0x00006013 (fun a imm v => ∀ k, k < 32 → v.getLsbD k = (a.getLsbD k || imm.getLsbD (min k 11))) ∧
  ImmediateRule .andi 0x00007013 (fun a imm v => ∀ k, k < 32 → v.getLsbD k = (a.getLsbD k && imm.getLsbD (min k 11)))

/-- SLLI, SRLI and SRAI shift by shamt; other values of bits 31..25 are not these instructions (funct3 and funct7 values marked
general knowledge, the check of all of funct7 the spec's decision D8). -/
def Obligations.ImmediateShifts : Prop :=
  ShiftRule .slli 0x00001013 (fun a n v => v.toNat = a.toNat * 2 ^ n % 2 ^ 32) ∧
  ShiftRule .srli 0x00005013 (fun a n v => v.toNat = a.toNat / 2 ^ n) ∧
  ShiftRule .srai 0x40005013 (fun a n v => v.toInt = a.toInt / 2 ^ n)

/-- LUI writes the 20-bit immediate into bits 31..12, AUIPC adds that to the address of the instruction itself (opcode values
marked general knowledge; the reading of pc is the spec's derivation in R241). -/
def Obligations.UpperImmediates : Prop :=
  (∀ w : Word, w &&& 0x0000007F = 0x00000037 → decode w = .instr (.lui (w.extractLsb' 7 5) (w.extractLsb' 12 20))) ∧
  (∀ w : Word, w &&& 0x0000007F = 0x00000017 → decode w = .instr (.auipc (w.extractLsb' 7 5) (w.extractLsb' 12 20))) ∧
  ∀ rd imm s,
    (∃ t v, exec (.lui rd imm) s = .next t ∧ WritesReg s t rd v (s.pc + 4) ∧ v.toNat = imm.toNat * 2 ^ 12) ∧
    (∃ t v, exec (.auipc rd imm) s = .next t ∧ WritesReg s t rd v (s.pc + 4) ∧
      v.toNat = (s.pc.toNat + imm.toNat * 2 ^ 12) % 2 ^ 32)

/-! ## Loads and stores -/

/-- The effective address of every load and store is x[rs1] plus the signed 12-bit displacement, modulo 2^32 (the spec's decision
D6). -/
def Obligations.EffectiveAddressWraps : Prop :=
  ∀ s rs1 imm, Displaced (readReg s rs1) imm.toInt (effectiveAddress s rs1 imm)

/-- LB, LH, LW, LBU and LHU: the check, the little-endian read, the extension, and INVALID_MEMORY_ACCESS where the check fails
(the check and the byte order are the spec's decisions D2-D5, the cases of a memory near or above 2^32 bytes the model's choices,
log entries 12 and 13; opcode and funct3 values marked general knowledge). -/
def Obligations.LoadsReadLittleEndian : Prop :=
  LoadRule .lb 0x00000003 1 (fun b v => v.toInt = (b 0).toInt) ∧
  LoadRule .lh 0x00001003 2 (fun b v => v.toInt = (b 1 ++ b 0).toInt) ∧
  LoadRule .lw 0x00002003 4 (fun b v => v = b 3 ++ b 2 ++ b 1 ++ b 0) ∧
  LoadRule .lbu 0x00004003 1 (fun b v => v.toNat = (b 0).toNat) ∧
  LoadRule .lhu 0x00005003 2 (fun b v => v.toNat = (b 1 ++ b 0).toNat)

/-- SB, SH and SW: the check, the bytes stored, everything else unchanged, the outcome, and INVALID_MEMORY_ACCESS with nothing
stored where the check fails (decisions D2-D5 and D15, and log entries 12 and 13, the model's choices; opcode and funct3
values marked general knowledge). -/
def Obligations.StoresWriteTheirBytesOnly : Prop :=
  StoreRule .sb 0x00000023 1 ∧ StoreRule .sh 0x00001023 2 ∧ StoreRule .sw 0x00002023 4

/-- Load/store symmetry at every address the check lets pass, aligned or not (the property R210 derives; beyond
2^32, and for negative sums, by log entries 12 and 13, the model's choices). -/
def Obligations.LoadReturnsWhatWasStored : Prop :=
  StoreThenLoad .sb .lbu 1 (fun x v => v.toNat = x.toNat % 2 ^ 8) ∧
  StoreThenLoad .sb .lb 1 (fun x v => v = (x.extractLsb' 0 8).signExtend 32) ∧
  StoreThenLoad .sh .lhu 2 (fun x v => v.toNat = x.toNat % 2 ^ 16) ∧
  StoreThenLoad .sh .lh 2 (fun x v => v = (x.extractLsb' 0 16).signExtend 32) ∧
  StoreThenLoad .sw .lw 4 (fun x v => v = x)

/-! ## Branches and jumps -/

/-- The six branches: where they go, that they change nothing but the pc, and OFFSET_NOT_32_BIT_ALIGNED taken or not (decision
D12; opcode and funct3 values marked general knowledge). -/
def Obligations.BranchesGoWhereTheirConditionSays : Prop :=
  BranchRule .beq 0x00000063 (fun a b => a = b) ∧
  BranchRule .bne 0x00001063 (fun a b => a ≠ b) ∧
  BranchRule .blt 0x00004063 (fun a b => a.toInt < b.toInt) ∧
  BranchRule .bge 0x00005063 (fun a b => b.toInt ≤ a.toInt) ∧
  BranchRule .bltu 0x00006063 (fun a b => a.toNat < b.toNat) ∧
  BranchRule .bgeu 0x00007063 (fun a b => b.toNat ≤ a.toNat)

/-- JAL: link and target, or OFFSET_NOT_32_BIT_ALIGNED with no link kept (opcode value marked general knowledge; the error reset's
details are decisions D14, D15). -/
def Obligations.JumpAndLink : Prop :=
  (∀ w : Word, w &&& 0x0000007F = 0x0000006F →
    decode w = .instr (.jal (w.extractLsb' 7 5)
      (w.extractLsb' 31 1 ++ w.extractLsb' 12 8 ++ w.extractLsb' 20 1 ++ w.extractLsb' 21 10 ++ 0#1))) ∧
  ∀ rd imm s,
    (imm.toInt % 4 = 0 →
      ∃ t target, exec (.jal rd imm) s = .next t ∧ WritesReg s t rd (s.pc + 4) target ∧
        Displaced s.pc imm.toInt target) ∧
    (imm.toInt % 4 ≠ 0 → ∃ t, exec (.jal rd imm) s = .next t ∧ ErrorResets s t .offsetNot32BitAligned)

/-- JALR: the target is the plain sum x[rs1] + immI with x[rs1] read before rd is written; a sum with bit 0 or bit 1 set raises
(decision D13; opcode and funct3 values marked general knowledge). -/
def Obligations.JumpAndLinkRegister : Prop :=
  (∀ w : Word, w &&& 0x0000707F = 0x00000067 →
    decode w = .instr (.jalr (w.extractLsb' 7 5) (w.extractLsb' 15 5) (w.extractLsb' 20 12))) ∧
  ∀ rd rs1 imm s target, Displaced (readReg s rs1) imm.toInt target →
    (target.toNat % 4 = 0 → ∃ t, exec (.jalr rd rs1 imm) s = .next t ∧ WritesReg s t rd (s.pc + 4) target) ∧
    (target.toNat % 4 ≠ 0 → ∃ t, exec (.jalr rd rs1 imm) s = .next t ∧ ErrorResets s t .offsetNot32BitAligned)

/-! ## Encoding -/

/-- A few words written out from the format layouts decode to their instructions (the first three are the source's own
encodings). -/
def Obligations.WrittenWordsDecode : Prop :=
  decode 0b0000000_11111_01000_000_00101_0110011 = .instr (.add 5 8 31) ∧
  decode 0b0100000_11111_01000_000_00101_0110011 = .instr (.sub 5 8 31) ∧
  decode 0b100000000000_00000_000_00010_0010011 = .instr (.addi 2 0 0x800) ∧
  decode 0b0000001_00010_00001_010_00011_0110011 = .instr (.mulhsu 3 1 2) ∧
  decode 0b1111111_00010_00001_010_11100_0100011 = .instr (.sw 1 2 0xFFC) ∧
  decode 0b1_111111_00000_00001_001_1110_1_1100011 = .instr (.bne 1 0 0x1FFC) ∧
  decode 0b1_1111111110_1_11111111_00000_1101111 = .instr (.jal 0 0x1FFFFC) ∧
  decode 0b00010010001101000101_00011_0110111 = .instr (.lui 3 0x12345)

/-- R80, R82, and the values of R78 and R79: the immediates of the I-, S- and U-types, as the pieces of the word give them, and
their ranges. -/
def Obligations.ImmediatesOfTypesISU : Prop :=
  ∀ w : Word,
    ((imm12 (immIField w)).toInt = (w.extractLsb' 20 12).toInt ∧
      -2048 ≤ (imm12 (immIField w)).toInt ∧ (imm12 (immIField w)).toInt ≤ 2047) ∧
    ((shamtField w).toNat = w.toNat / 2 ^ 20 % 32) ∧
    ((imm12 (immSField w)).toInt = 32 * (w.extractLsb' 25 7).toInt + (w.extractLsb' 7 5).toNat ∧
      -2048 ≤ (imm12 (immSField w)).toInt ∧ (imm12 (immSField w)).toInt ≤ 2047) ∧
    (immU (immUField w) = w &&& 0xFFFFF000)

/-- The displacements of the B- and J-types, as sums of the pieces of the word, and their ranges; they are even (the places of the
pieces are marked general knowledge in R75 and R77). -/
def Obligations.DisplacementsOfTypesBJ : Prop :=
  ∀ w : Word,
    ((immB (immBField w)).toInt =
        -4096 * (w.extractLsb' 31 1).toNat + 2048 * (w.extractLsb' 7 1).toNat + 32 * (w.extractLsb' 25 6).toNat +
          2 * (w.extractLsb' 8 4).toNat ∧
      -4096 ≤ (immB (immBField w)).toInt ∧ (immB (immBField w)).toInt ≤ 4094 ∧ (immB (immBField w)).toInt % 2 = 0) ∧
    ((immJ (immJField w)).toInt =
        -1048576 * (w.extractLsb' 31 1).toNat + 4096 * (w.extractLsb' 12 8).toNat + 2048 * (w.extractLsb' 20 1).toNat +
          2 * (w.extractLsb' 21 10).toNat ∧
      -1048576 ≤ (immJ (immJField w)).toInt ∧ (immJ (immJField w)).toInt ≤ 1048574 ∧
      (immJ (immJField w)).toInt % 2 = 0)

/-- R85: decoding an encoded well-formed instruction gives it back, every operand at every value. -/
def Obligations.DecodeEncodeAgree : Prop :=
  ∀ i : Instr, i.wellFormed = true → decode (encode i) = .instr i

/-- The other direction: a word that decodes to an instruction is that instruction's encoding, and the instruction is well
formed; so no two words mean the same instruction. -/
def Obligations.EncodeDecodeAgree : Prop :=
  ∀ (w : Word) (i : Instr), decode w = .instr i → encode i = w ∧ i.wellFormed = true

/-- The decoder and the match-and-mask table say the same of every word: a word decodes to an instruction exactly when a row of
spec/opcode_table.json covers it, and then the row has the instruction's mnemonic. -/
def Obligations.DecoderAgreesWithOpcodeTable : Prop :=
  (∀ (w : Word) (i : Instr), decode w = .instr i → ∃ r ∈ opcodeRows, r.covers w = true ∧ r.mnemonic = i.mnemonic) ∧
  (∀ (w : Word) (r : OpcodeRow), r ∈ opcodeRows → r.covers w = true → ∃ i, decode w = .instr i ∧ i.mnemonic = r.mnemonic)

/-! ## The step -/

/-- A step runs the decoded instruction: nothing is added around `exec`. -/
def Obligations.StepRunsTheDecodedInstruction : Prop :=
  ∀ s w i, s.program[s.pc.toNat / 4]? = some w → decode w = .instr i → step s = exec i s

/-- R120: at an index at or beyond the program length the Step reports PC_OUT_OF_BOUNDS and no register, pc, memory byte or
program word changes; below it, the word at the index is fetched. -/
def Obligations.FetchStopsAtProgramEnd : Prop :=
  (∀ s, s.program.length ≤ s.pc.toNat / 4 →
    ∃ t o, step s = .next t ∧ WritesPcOnly s t s.pc ∧ t.lastOutcome = some o ∧ o.success = false ∧
      o.error = .pcOutOfBounds) ∧
  (∀ s, (h : s.pc.toNat / 4 < s.program.length) → fetch s = some (s.program[s.pc.toNat / 4]))

/-- Stepping at the end of the program again reports PC_OUT_OF_BOUNDS again, with the same state (derived in R253). -/
def Obligations.ProgramEndIsIdempotent : Prop :=
  ∀ s t, s.program.length ≤ s.pc.toNat / 4 → step s = .next t →
    endedNormally t ∧ runEnded t = true ∧ step t = .next t

/-- R122: a word the decoder maps to no instruction raises UNSUPPORTED_OPCODE. -/
def Obligations.UnsupportedWordsRaise : Prop :=
  ∀ s w, fetch s = some w → decode w = .unsupported →
    ∃ t o, step s = .next t ∧ t.lastOutcome = some o ∧ o.success = false ∧ o.error = .unsupportedOpcode

/-- The words R94 names: every opcode but the nine, and within the nine every funct3 and funct7 the map does not list, are
unsupported (decisions D7, D8, D9, D19; values marked general knowledge). -/
def Obligations.UnlistedWordsAreUnsupported : Prop :=
  ∀ w : Word,
    (w.extractLsb' 0 7 ∉ [0b0110011#7, 0b0010011, 0b0000011, 0b0100011, 0b1100011, 0b1101111, 0b1100111, 0b0110111,
      0b0010111] → decode w = .unsupported) ∧
    (w.extractLsb' 0 7 = 0b0110011#7 → w.extractLsb' 25 7 ∉ [0#7, 1#7, 32#7] → decode w = .unsupported) ∧
    (w.extractLsb' 0 7 = 0b0110011#7 → w.extractLsb' 25 7 = 32#7 → w.extractLsb' 12 3 ∉ [0#3, 5#3] →
      decode w = .unsupported) ∧
    (w.extractLsb' 0 7 = 0b0010011#7 → w.extractLsb' 12 3 = 1#3 → w.extractLsb' 25 7 ≠ 0#7 → decode w = .unsupported) ∧
    (w.extractLsb' 0 7 = 0b0010011#7 → w.extractLsb' 12 3 = 5#3 → w.extractLsb' 25 7 ∉ [0#7, 32#7] →
      decode w = .unsupported) ∧
    (w.extractLsb' 0 7 = 0b0000011#7 → w.extractLsb' 12 3 ∈ [3#3, 6#3, 7#3] → decode w = .unsupported) ∧
    (w.extractLsb' 0 7 = 0b0100011#7 → w.extractLsb' 12 3 ∈ [3#3, 4#3, 5#3, 6#3, 7#3] → decode w = .unsupported) ∧
    (w.extractLsb' 0 7 = 0b1100011#7 → w.extractLsb' 12 3 ∈ [2#3, 3#3] → decode w = .unsupported) ∧
    (w.extractLsb' 0 7 = 0b1100111#7 → w.extractLsb' 12 3 ≠ 0#3 → decode w = .unsupported)

/-- Every step that reports an error other than PC_OUT_OF_BOUNDS is the error reset: registers and pc 0, memory, its size and the
program kept, no change reported, and the failing index (decisions D14, D15). -/
def Obligations.EveryErrorIsTheErrorReset : Prop :=
  ∀ s t o, step s = .next t → t.lastOutcome = some o → o.success = false → o.error ≠ .pcOutOfBounds →
    ErrorResets s t o.error

/-- After an error the next Step fetches word 0 of the same program, from cleared registers (derived in R257). -/
def Obligations.ErrorRestartsTheProgram : Prop :=
  ∀ s t o, step s = .next t → t.lastOutcome = some o → o.success = false → o.error ≠ .pcOutOfBounds →
    fetch t = s.program[0]? ∧ ∀ r, readReg t r = 0

/-- Which instructions raise which error: the table of R251. -/
def Obligations.ErrorsComeFromTheirInstructions : Prop :=
  ∀ s t o, step s = .next t → t.lastOutcome = some o →
    (o.error = .divisionByZero →
      ∃ i rd rs1 rs2, Runs s i ∧ readReg s rs2 = 0 ∧
        (i = .div rd rs1 rs2 ∨ i = .divu rd rs1 rs2 ∨ i = .rem rd rs1 rs2 ∨ i = .remu rd rs1 rs2)) ∧
    (o.error = .invalidMemoryAccess → ∃ i, Runs s i ∧ (i.isLoad = true ∨ i.isStore = true)) ∧
    (o.error = .offsetNot32BitAligned →
      ∃ i, Runs s i ∧ i.isControlTransfer = true) ∧
    (o.error = .unsupportedOpcode → ∃ w, fetch s = some w ∧ decode w = .unsupported) ∧
    (o.error = .pcOutOfBounds → s.program.length ≤ s.pc.toNat / 4)

/-- R252: INVALID_REGISTER is never raised, by any step in any state. -/
def Obligations.InvalidRegisterIsNeverRaised : Prop :=
  ∀ s t o, step s = .next t → t.lastOutcome = some o → o.error ≠ .invalidRegister

/-- Every step reports one well-formed outcome, whose pc is the pc after it (decision D15). -/
def Obligations.EveryStepReportsAnOutcome : Prop :=
  ∀ s t, step s = .next t → ∃ o, t.lastOutcome = some o ∧ o.wellFormed ∧ o.pc = t.pc

/-- A successful step reports exactly its change: rd with the value read back after the write when the instruction has an rd, a
memory change exactly when it is a store (decision D15). -/
def Obligations.SuccessReportsTheChange : Prop :=
  ∀ s t o, step s = .next t → t.lastOutcome = some o → o.success = true →
    ∃ i, Runs s i ∧ o.regChange = i.dest?.map (fun r => ⟨r, readReg t r⟩) ∧ o.memChange.isSome = i.isStore

/-- A step always answers, and never refuses: with DIV_OVERFLOW = riscv it answers a next state in every state; otherwise the
only stop is the overflow fault of a DIV or REM. -/
def Obligations.StepAlwaysAnswers : Prop :=
  ∀ s, (s.params.divOverflow = .riscv → ∃ t, step s = .next t) ∧
    ((∃ t, step s = .next t) ∨
      ∃ rd rs1 rs2, (Runs s (.div rd rs1 rs2) ∨ Runs s (.rem rd rs1 rs2)) ∧
        OverflowPair (readReg s rs1) (readReg s rs2) ∧
        step s = .fault (.divOverflowUnmodelled (s.pc.toNat / 4)))

/-! ## Rules of the whole machine -/

/-- The states of the engine are closed under a step: canonical memory below MEM_BYTES, an aligned pc, the zero slot, a program
of at most 2^30 words. -/
def Obligations.StepKeepsTheInvariant : Prop :=
  ∀ s t, s.Inv → step s = .next t → t.Inv

/-- The state after creation meets the invariant. -/
def Obligations.ResetMeetsTheInvariant : Prop := State.reset.Inv

/-- Every host command that answers keeps the invariant, and so a launch does too. -/
def Obligations.HostCommandsKeepTheInvariant : Prop :=
  (∀ c s t, s.Inv → runCommand c s = .next t → t.Inv) ∧
  (∀ words s t, s.Inv → launch words s = .next t → t.Inv)

/-- The instruction stream is the words LoadProgram gave, word i is the instruction at byte address 4i, and no step changes it,
whatever is stored (R28); nor does a step change the data memory's size, or the parameters, which are constant data in the state
by the model's choice (log entry 3). -/
def Obligations.NoStepWritesTheInstructionStream : Prop :=
  (∀ words s t, loadProgram words s = .next t → t.program = words) ∧
  (∀ s i, s.pc.toNat = 4 * i → fetch s = s.program[i]?) ∧
  (∀ s t, step s = .next t → KeepsMachine s t)

/-- A step that changes a byte of memory runs a store, and the byte is one of those the store writes; their addresses are
integers that do not wrap (the model's choice, log entry 12). -/
def Obligations.OnlyStoresChangeMemory : Prop :=
  ∀ s t a, step s = .next t → Memory.readByte t.mem a ≠ Memory.readByte s.mem a →
    ∃ i rs1 rs2 imm n, Runs s i ∧
      ((i = .sb rs1 rs2 imm ∧ n = 1) ∨ (i = .sh rs1 rs2 imm ∧ n = 2) ∨ (i = .sw rs1 rs2 imm ∧ n = 4)) ∧
      (effectiveAddress s rs1 imm).toNat ≤ a ∧ a < (effectiveAddress s rs1 imm).toNat + n ∧ a < 4 * s.memWords

/-- A successful step changes at most the one register its instruction names as rd, and never x0. -/
def Obligations.OneDestinationRegister : Prop :=
  ∀ s t r, step s = .next t → runEnded t = false → readReg t r ≠ readReg s r →
    r ≠ 0 ∧ ∃ i, Runs s i ∧ i.dest? = some r

/-- No step reads the outcome of an earlier one: states that differ in nothing else step to the same answer (R29: the last outcome
is output, not state). -/
def Obligations.StepIgnoresTheLastOutcome : Prop :=
  ∀ s t, AgreeButOutcome s t → step s = step t

/-- Only a load is influenced by what memory holds: any other step, run with another memory, gives the same registers, the same pc
and the same outcome. -/
def Obligations.OnlyLoadsReadMemory : Prop :=
  ∀ s m t, (∀ i, Runs s i → i.isLoad = false) → step s = .next t →
    ∃ t', step (s.setMem m) = .next t' ∧ t'.regs = t.regs ∧ t'.pc = t.pc ∧ t'.lastOutcome = t.lastOutcome

/-- A successful step that is no branch and no jump advances the pc by 4, modulo 2^32 (decision D6). -/
def Obligations.SequentialAdvance : Prop :=
  ∀ s t i, Runs s i → i.isControlTransfer = false →
    step s = .next t → runEnded t = false → t.pc.toNat = (s.pc.toNat + 4) % 2 ^ 32

/-! ## Host commands, reset and runs -/

/-- `Reset()`: every register, the pc and every memory byte become 0; the memory size, the program and the parameters stay (that
the program survives is decision D18). -/
def Obligations.ResetClearsRegistersAndMemory : Prop :=
  ∀ s, ∃ t, runCommand .reset s = .next t ∧ (∀ r, readReg t r = 0) ∧ t.pc = 0 ∧ (∀ a, Memory.readByte t.mem a = 0) ∧
    KeepsMachine s t ∧ (t.program[0]? = s.program[0]? ∧ fetch t = s.program[0]?)

/-- The state after creation: registers, pc and memory 0, MEM_WORDS 2048, an empty program, so that the first step reports
PC_OUT_OF_BOUNDS (decision D17). -/
def Obligations.CreationState : Prop :=
  (∀ r, readReg State.reset r = 0) ∧ State.reset.pc = 0 ∧ (∀ a, Memory.readByte State.reset.mem a = 0) ∧
    State.reset.memWords = 2048 ∧ State.reset.program = [] ∧
    ∃ t, step State.reset = .next t ∧ endedNormally t

/-- `LoadProgram` changes the program and nothing else, and refuses more than 2^30 words (decisions D18, D22). -/
def Obligations.LoadProgramChangesOnlyTheProgram : Prop :=
  ∀ words s,
    (words.length ≤ 2 ^ 30 →
      ∃ t, runCommand (.loadProgram words) s = .next t ∧ t.program = words ∧ t.regs = s.regs ∧ t.pc = s.pc ∧
        t.mem = s.mem ∧ t.memWords = s.memWords ∧ t.params = s.params) ∧
    (2 ^ 30 < words.length → runCommand (.loadProgram words) s = .refused .programTooLong)

/-- Resizing keeps the content below the smaller size and zero-fills: shrinking and growing again leaves 0 in what was cut off
(decisions D2, D23). The memory holds nothing at or beyond its size, as in every state of the engine. -/
def Obligations.ResizeKeepsContentAndZeroFills : Prop :=
  ∀ n s, s.Inv → ∃ t, runCommand (.resize n) s = .next t ∧ t.memWords = n ∧
    (∀ a, a < 4 * min n s.memWords → Memory.readByte t.mem a = Memory.readByte s.mem a) ∧
    (∀ a, 4 * min n s.memWords ≤ a → Memory.readByte t.mem a = 0) ∧
    t.regs = s.regs ∧ t.pc = s.pc ∧ t.program = s.program ∧ t.params = s.params

/-- R31: GetStatus returns x0 .. x31, x0 reading 0, and the pc, and changes no state. -/
def Obligations.GetStatusReadsAndChangesNothing : Prop :=
  ∀ s, runCommand .getStatus s = .next s ∧ (getStatus s).pc = s.pc ∧ (getStatus s).registers[0] = 0 ∧
    ∀ r : RegIdx, (getStatus s).registers[r.toNat]'(r.isLt) = readReg s r

/-- A run that has ended stays as it ended: more steps allowed to the run change nothing (decision D20: a run ends at the first
outcome that is not success). The run starts from a state no run has ended in, as a launch leaves it. -/
def Obligations.RunStopsAtFirstFailure : Prop :=
  ∀ k j s t, runEnded s = false → runSteps k s = .next t → runEnded t = true → runSteps (k + j) s = .next t

/-! ## The assembler -/

/-- Every word the assembler outputs is an instruction the engine decodes, and it outputs one source line for each word (the
toolchain's rules R106, R107; log entry 7). -/
def Obligations.AssembledWordsDecode : Prop :=
  ∀ lines o, assemble lines = .outcome o → o.success = true →
    o.words.length = o.lineMap.length ∧ ∀ w ∈ o.words, ∃ i, decode w = .instr i
end

