-- ==== Sys2Proof/Laws/Decode.lean ====
section
/-! SUPPORT. The fields of encoded words, format by format, the fields a row's mask fixes, and that no two rows of the opcode
table overlap. -/

namespace Sys2Proof

/-! ## Cutting a concatenation -/

/-- A cut that lies below the seam. -/
theorem extractLsb'_append_low {n m : Nat} (a : BitVec n) (b : BitVec m) (i l : Nat) (h : i + l ≤ m) :
    (a ++ b).extractLsb' i l = b.extractLsb' i l := by
  apply BitVec.eq_of_getLsbD_eq
  intro k hk
  rw [BitVec.getLsbD_extractLsb', BitVec.getLsbD_extractLsb', BitVec.getLsbD_append]
  simp [show i + k < m by omega]

/-- A cut that lies above the seam. -/
theorem extractLsb'_append_high {n m : Nat} (a : BitVec n) (b : BitVec m) (i l : Nat) (h : m ≤ i) :
    (a ++ b).extractLsb' i l = a.extractLsb' (i - m) l := by
  apply BitVec.eq_of_getLsbD_eq
  intro k hk
  rw [BitVec.getLsbD_extractLsb', BitVec.getLsbD_extractLsb', BitVec.getLsbD_append]
  simp [show ¬ i + k < m by omega, show i + k - m = i - m + k by omega]

/-- The cut that takes everything. -/
theorem extractLsb'_whole {n : Nat} (a : BitVec n) : a.extractLsb' 0 n = a := by
  apply BitVec.eq_of_getLsbD_eq
  intro k hk
  simp [hk]

/-- Two adjoining cuts put together are one cut. -/
theorem extractLsb'_append_extractLsb' {n : Nat} (a : BitVec n) (i l k : Nat) :
    a.extractLsb' (i + l) k ++ a.extractLsb' i l = a.extractLsb' i (k + l) := by
  apply BitVec.eq_of_getLsbD_eq
  intro j hj
  rw [BitVec.getLsbD_append]
  simp only [BitVec.getLsbD_extractLsb']
  by_cases h : j < l
  · simp [h, hj]
  · simp [h, hj, show j - l < k by omega, show i + l + (j - l) = i + j by omega]

/-- A cut of a masked word whose mask is all ones there. -/
theorem extractLsb'_of_and {w m p : Word} (h : w &&& m = p) (i l : Nat) (hm : m.extractLsb' i l = BitVec.allOnes l) :
    w.extractLsb' i l = p.extractLsb' i l := by
  rw [← h, BitVec.extractLsb'_and, hm, BitVec.and_allOnes]

/-! ## The fields of an encoded word -/

section Fields
variable (f7 : BitVec 7) (f3 : BitVec 3) (op : BitVec 7) (rd rs1 rs2 : RegIdx) (shamt : BitVec 5) (imm : BitVec 12)
  (immB : BitVec 13) (immU : BitVec 20) (immJ : BitVec 21)

@[simp] theorem opcodeField_encodeR : opcodeField (encodeR f7 f3 rd rs1 rs2) = opcodeOp := by
  unfold opcodeField encodeR
  rw [extractLsb'_append_low _ _ _ _ (by decide), extractLsb'_whole]

@[simp] theorem rdField_encodeR : rdField (encodeR f7 f3 rd rs1 rs2) = rd := by
  unfold rdField encodeR
  rw [extractLsb'_append_high _ _ _ _ (by decide), extractLsb'_append_low _ _ _ _ (by decide), extractLsb'_whole]

@[simp] theorem funct3Field_encodeR : funct3Field (encodeR f7 f3 rd rs1 rs2) = f3 := by
  unfold funct3Field encodeR
  rw [extractLsb'_append_high _ _ _ _ (by decide), extractLsb'_append_high _ _ _ _ (by decide), extractLsb'_append_low _ _ _ _ (by decide), extractLsb'_whole]

@[simp] theorem rs1Field_encodeR : rs1Field (encodeR f7 f3 rd rs1 rs2) = rs1 := by
  unfold rs1Field encodeR
  rw [extractLsb'_append_high _ _ _ _ (by decide), extractLsb'_append_high _ _ _ _ (by decide), extractLsb'_append_high _ _ _ _ (by decide), extractLsb'_append_low _ _ _ _ (by decide), extractLsb'_whole]

@[simp] theorem rs2Field_encodeR : rs2Field (encodeR f7 f3 rd rs1 rs2) = rs2 := by
  unfold rs2Field encodeR
  rw [extractLsb'_append_high _ _ _ _ (by decide), extractLsb'_append_high _ _ _ _ (by decide), extractLsb'_append_high _ _ _ _ (by decide), extractLsb'_append_high _ _ _ _ (by decide), extractLsb'_append_low _ _ _ _ (by decide), extractLsb'_whole]

@[simp] theorem funct7Field_encodeR : funct7Field (encodeR f7 f3 rd rs1 rs2) = f7 := by
  unfold funct7Field encodeR
  rw [extractLsb'_append_high _ _ _ _ (by decide), extractLsb'_append_high _ _ _ _ (by decide), extractLsb'_append_high _ _ _ _ (by decide), extractLsb'_append_high _ _ _ _ (by decide), extractLsb'_append_high _ _ _ _ (by decide), extractLsb'_whole]

@[simp] theorem opcodeField_encodeI : opcodeField (encodeI op f3 rd rs1 imm) = op := by
  unfold opcodeField encodeI
  rw [extractLsb'_append_low _ _ _ _ (by decide), extractLsb'_whole]

@[simp] theorem rdField_encodeI : rdField (encodeI op f3 rd rs1 imm) = rd := by
  unfold rdField encodeI
  rw [extractLsb'_append_high _ _ _ _ (by decide), extractLsb'_append_low _ _ _ _ (by decide), extractLsb'_whole]

@[simp] theorem funct3Field_encodeI : funct3Field (encodeI op f3 rd rs1 imm) = f3 := by
  unfold funct3Field encodeI
  rw [extractLsb'_append_high _ _ _ _ (by decide), extractLsb'_append_high _ _ _ _ (by decide), extractLsb'_append_low _ _ _ _ (by decide), extractLsb'_whole]

@[simp] theorem rs1Field_encodeI : rs1Field (encodeI op f3 rd rs1 imm) = rs1 := by
  unfold rs1Field encodeI
  rw [extractLsb'_append_high _ _ _ _ (by decide), extractLsb'_append_high _ _ _ _ (by decide), extractLsb'_append_high _ _ _ _ (by decide), extractLsb'_append_low _ _ _ _ (by decide), extractLsb'_whole]

@[simp] theorem immIField_encodeI : immIField (encodeI op f3 rd rs1 imm) = imm := by
  unfold immIField encodeI
  rw [extractLsb'_append_high _ _ _ _ (by decide), extractLsb'_append_high _ _ _ _ (by decide), extractLsb'_append_high _ _ _ _ (by decide), extractLsb'_append_high _ _ _ _ (by decide), extractLsb'_whole]

@[simp] theorem opcodeField_encodeShift : opcodeField (encodeShift f7 f3 rd rs1 shamt) = opcodeOpImm := by
  unfold opcodeField encodeShift
  rw [extractLsb'_append_low _ _ _ _ (by decide), extractLsb'_whole]

@[simp] theorem rdField_encodeShift : rdField (encodeShift f7 f3 rd rs1 shamt) = rd := by
  unfold rdField encodeShift
  rw [extractLsb'_append_high _ _ _ _ (by decide), extractLsb'_append_low _ _ _ _ (by decide), extractLsb'_whole]

@[simp] theorem funct3Field_encodeShift : funct3Field (encodeShift f7 f3 rd rs1 shamt) = f3 := by
  unfold funct3Field encodeShift
  rw [extractLsb'_append_high _ _ _ _ (by decide), extractLsb'_append_high _ _ _ _ (by decide), extractLsb'_append_low _ _ _ _ (by decide), extractLsb'_whole]

@[simp] theorem rs1Field_encodeShift : rs1Field (encodeShift f7 f3 rd rs1 shamt) = rs1 := by
  unfold rs1Field encodeShift
  rw [extractLsb'_append_high _ _ _ _ (by decide), extractLsb'_append_high _ _ _ _ (by decide), extractLsb'_append_high _ _ _ _ (by decide), extractLsb'_append_low _ _ _ _ (by decide), extractLsb'_whole]

@[simp] theorem shamtField_encodeShift : shamtField (encodeShift f7 f3 rd rs1 shamt) = shamt := by
  unfold shamtField encodeShift
  rw [extractLsb'_append_high _ _ _ _ (by decide), extractLsb'_append_high _ _ _ _ (by decide), extractLsb'_append_high _ _ _ _ (by decide), extractLsb'_append_high _ _ _ _ (by decide), extractLsb'_append_low _ _ _ _ (by decide), extractLsb'_whole]

@[simp] theorem funct7Field_encodeShift : funct7Field (encodeShift f7 f3 rd rs1 shamt) = f7 := by
  unfold funct7Field encodeShift
  rw [extractLsb'_append_high _ _ _ _ (by decide), extractLsb'_append_high _ _ _ _ (by decide), extractLsb'_append_high _ _ _ _ (by decide), extractLsb'_append_high _ _ _ _ (by decide), extractLsb'_append_high _ _ _ _ (by decide), extractLsb'_whole]

@[simp] theorem opcodeField_encodeS : opcodeField (encodeS f3 rs1 rs2 imm) = opcodeStore := by
  unfold opcodeField encodeS
  rw [extractLsb'_append_low _ _ _ _ (by decide), extractLsb'_whole]

@[simp] theorem funct3Field_encodeS : funct3Field (encodeS f3 rs1 rs2 imm) = f3 := by
  unfold funct3Field encodeS
  rw [extractLsb'_append_high _ _ _ _ (by decide), extractLsb'_append_high _ _ _ _ (by decide), extractLsb'_append_low _ _ _ _ (by decide), extractLsb'_whole]

@[simp] theorem rs1Field_encodeS : rs1Field (encodeS f3 rs1 rs2 imm) = rs1 := by
  unfold rs1Field encodeS
  rw [extractLsb'_append_high _ _ _ _ (by decide), extractLsb'_append_high _ _ _ _ (by decide), extractLsb'_append_high _ _ _ _ (by decide), extractLsb'_append_low _ _ _ _ (by decide), extractLsb'_whole]

@[simp] theorem rs2Field_encodeS : rs2Field (encodeS f3 rs1 rs2 imm) = rs2 := by
  unfold rs2Field encodeS
  rw [extractLsb'_append_high _ _ _ _ (by decide), extractLsb'_append_high _ _ _ _ (by decide), extractLsb'_append_high _ _ _ _ (by decide), extractLsb'_append_high _ _ _ _ (by decide), extractLsb'_append_low _ _ _ _ (by decide), extractLsb'_whole]

@[simp] theorem opcodeField_encodeB : opcodeField (encodeB f3 rs1 rs2 immB) = opcodeBranch := by
  unfold opcodeField encodeB
  rw [extractLsb'_append_low _ _ _ _ (by decide), extractLsb'_whole]

@[simp] theorem funct3Field_encodeB : funct3Field (encodeB f3 rs1 rs2 immB) = f3 := by
  unfold funct3Field encodeB
  rw [extractLsb'_append_high _ _ _ _ (by decide), extractLsb'_append_high _ _ _ _ (by decide), extractLsb'_append_high _ _ _ _ (by decide), extractLsb'_append_low _ _ _ _ (by decide), extractLsb'_whole]

@[simp] theorem rs1Field_encodeB : rs1Field (encodeB f3 rs1 rs2 immB) = rs1 := by
  unfold rs1Field encodeB
  rw [extractLsb'_append_high _ _ _ _ (by decide), extractLsb'_append_high _ _ _ _ (by decide), extractLsb'_append_high _ _ _ _ (by decide), extractLsb'_append_high _ _ _ _ (by decide), extractLsb'_append_low _ _ _ _ (by decide), extractLsb'_whole]

@[simp] theorem rs2Field_encodeB : rs2Field (encodeB f3 rs1 rs2 immB) = rs2 := by
  unfold rs2Field encodeB
  rw [extractLsb'_append_high _ _ _ _ (by decide), extractLsb'_append_high _ _ _ _ (by decide), extractLsb'_append_high _ _ _ _ (by decide), extractLsb'_append_high _ _ _ _ (by decide), extractLsb'_append_high _ _ _ _ (by decide), extractLsb'_append_low _ _ _ _ (by decide), extractLsb'_whole]

@[simp] theorem opcodeField_encodeU : opcodeField (encodeU op rd immU) = op := by
  unfold opcodeField encodeU
  rw [extractLsb'_append_low _ _ _ _ (by decide), extractLsb'_whole]

@[simp] theorem rdField_encodeU : rdField (encodeU op rd immU) = rd := by
  unfold rdField encodeU
  rw [extractLsb'_append_high _ _ _ _ (by decide), extractLsb'_append_low _ _ _ _ (by decide), extractLsb'_whole]

@[simp] theorem immUField_encodeU : immUField (encodeU op rd immU) = immU := by
  unfold immUField encodeU
  rw [extractLsb'_append_high _ _ _ _ (by decide), extractLsb'_append_high _ _ _ _ (by decide), extractLsb'_whole]

@[simp] theorem opcodeField_encodeJ : opcodeField (encodeJ rd immJ) = opcodeJal := by
  unfold opcodeField encodeJ
  rw [extractLsb'_append_low _ _ _ _ (by decide), extractLsb'_whole]

@[simp] theorem rdField_encodeJ : rdField (encodeJ rd immJ) = rd := by
  unfold rdField encodeJ
  rw [extractLsb'_append_high _ _ _ _ (by decide), extractLsb'_append_low _ _ _ _ (by decide), extractLsb'_whole]

/-- Bit 0 of an even displacement. -/
theorem extractLsb'_zero_of_even {n : Nat} (a : BitVec n) (h : evenDisplacement a = true) : a.extractLsb' 0 1 = 0#1 := by
  apply BitVec.eq_of_getLsbD_eq
  intro k hk
  have hk : k = 0 := by omega
  subst hk
  simpa [evenDisplacement, BitVec.getLsbD_extractLsb'] using h

/-- The S-immediate's two pieces put together again (R85). -/
@[simp] theorem immSField_encodeS : immSField (encodeS f3 rs1 rs2 imm) = imm := by
  have h1 : (encodeS f3 rs1 rs2 imm).extractLsb' 25 7 = imm.extractLsb' 5 7 := by
    unfold encodeS
    rw [extractLsb'_append_high _ _ _ _ (by decide), extractLsb'_append_high _ _ _ _ (by decide), extractLsb'_append_high _ _ _ _ (by decide), extractLsb'_append_high _ _ _ _ (by decide), extractLsb'_append_high _ _ _ _ (by decide), extractLsb'_whole]
  have h2 : (encodeS f3 rs1 rs2 imm).extractLsb' 7 5 = imm.extractLsb' 0 5 := by
    unfold encodeS
    rw [extractLsb'_append_high _ _ _ _ (by decide), extractLsb'_append_low _ _ _ _ (by decide), extractLsb'_whole]
  unfold immSField
  rw [h1, h2]
  exact (extractLsb'_append_extractLsb' imm 0 5 7).trans (extractLsb'_whole imm)

/-- The B-immediate's four pieces put together again, for an even displacement (R85). -/
theorem immBField_encodeB (h : evenDisplacement immB = true) : immBField (encodeB f3 rs1 rs2 immB) = immB := by
  have h1 : (encodeB f3 rs1 rs2 immB).extractLsb' 31 1 = immB.extractLsb' 12 1 := by
    unfold encodeB
    rw [extractLsb'_append_high _ _ _ _ (by decide), extractLsb'_append_high _ _ _ _ (by decide), extractLsb'_append_high _ _ _ _ (by decide), extractLsb'_append_high _ _ _ _ (by decide), extractLsb'_append_high _ _ _ _ (by decide), extractLsb'_append_high _ _ _ _ (by decide), extractLsb'_append_high _ _ _ _ (by decide), extractLsb'_whole]
  have h2 : (encodeB f3 rs1 rs2 immB).extractLsb' 7 1 = immB.extractLsb' 11 1 := by
    unfold encodeB
    rw [extractLsb'_append_high _ _ _ _ (by decide), extractLsb'_append_low _ _ _ _ (by decide), extractLsb'_whole]
  have h3 : (encodeB f3 rs1 rs2 immB).extractLsb' 25 6 = immB.extractLsb' 5 6 := by
    unfold encodeB
    rw [extractLsb'_append_high _ _ _ _ (by decide), extractLsb'_append_high _ _ _ _ (by decide), extractLsb'_append_high _ _ _ _ (by decide), extractLsb'_append_high _ _ _ _ (by decide), extractLsb'_append_high _ _ _ _ (by decide), extractLsb'_append_high _ _ _ _ (by decide), extractLsb'_append_low _ _ _ _ (by decide), extractLsb'_whole]
  have h4 : (encodeB f3 rs1 rs2 immB).extractLsb' 8 4 = immB.extractLsb' 1 4 := by
    unfold encodeB
    rw [extractLsb'_append_high _ _ _ _ (by decide), extractLsb'_append_high _ _ _ _ (by decide), extractLsb'_append_low _ _ _ _ (by decide), extractLsb'_whole]
  unfold immBField
  rw [h1, h2, h3, h4, ← extractLsb'_zero_of_even immB h,
    show immB.extractLsb' 12 1 ++ immB.extractLsb' 11 1 = immB.extractLsb' 11 (1 + 1) from
      extractLsb'_append_extractLsb' immB 11 1 1,
    show immB.extractLsb' 11 (1 + 1) ++ immB.extractLsb' 5 6 = immB.extractLsb' 5 (1 + 1 + 6) from
      extractLsb'_append_extractLsb' immB 5 6 (1 + 1),
    show immB.extractLsb' 5 (1 + 1 + 6) ++ immB.extractLsb' 1 4 = immB.extractLsb' 1 (1 + 1 + 6 + 4) from
      extractLsb'_append_extractLsb' immB 1 4 (1 + 1 + 6),
    show immB.extractLsb' 1 (1 + 1 + 6 + 4) ++ immB.extractLsb' 0 1 = immB.extractLsb' 0 (1 + 1 + 6 + 4 + 1) from
      extractLsb'_append_extractLsb' immB 0 1 (1 + 1 + 6 + 4)]
  exact extractLsb'_whole immB

/-- The J-immediate's four pieces put together again, for an even displacement (R85). -/
theorem immJField_encodeJ (h : evenDisplacement immJ = true) : immJField (encodeJ rd immJ) = immJ := by
  have h1 : (encodeJ rd immJ).extractLsb' 31 1 = immJ.extractLsb' 20 1 := by
    unfold encodeJ
    rw [extractLsb'_append_high _ _ _ _ (by decide), extractLsb'_append_high _ _ _ _ (by decide), extractLsb'_append_high _ _ _ _ (by decide), extractLsb'_append_high _ _ _ _ (by decide), extractLsb'_append_high _ _ _ _ (by decide), extractLsb'_whole]
  have h2 : (encodeJ rd immJ).extractLsb' 12 8 = immJ.extractLsb' 12 8 := by
    unfold encodeJ
    rw [extractLsb'_append_high _ _ _ _ (by decide), extractLsb'_append_high _ _ _ _ (by decide), extractLsb'_append_low _ _ _ _ (by decide), extractLsb'_whole]
  have h3 : (encodeJ rd immJ).extractLsb' 20 1 = immJ.extractLsb' 11 1 := by
    unfold encodeJ
    rw [extractLsb'_append_high _ _ _ _ (by decide), extractLsb'_append_high _ _ _ _ (by decide), extractLsb'_append_high _ _ _ _ (by decide), extractLsb'_append_low _ _ _ _ (by decide), extractLsb'_whole]
  have h4 : (encodeJ rd immJ).extractLsb' 21 10 = immJ.extractLsb' 1 10 := by
    unfold encodeJ
    rw [extractLsb'_append_high _ _ _ _ (by decide), extractLsb'_append_high _ _ _ _ (by decide), extractLsb'_append_high _ _ _ _ (by decide), extractLsb'_append_high _ _ _ _ (by decide), extractLsb'_append_low _ _ _ _ (by decide), extractLsb'_whole]
  unfold immJField
  rw [h1, h2, h3, h4, ← extractLsb'_zero_of_even immJ h,
    show immJ.extractLsb' 20 1 ++ immJ.extractLsb' 12 8 = immJ.extractLsb' 12 (1 + 8) from
      extractLsb'_append_extractLsb' immJ 12 8 1,
    show immJ.extractLsb' 12 (1 + 8) ++ immJ.extractLsb' 11 1 = immJ.extractLsb' 11 (1 + 8 + 1) from
      extractLsb'_append_extractLsb' immJ 11 1 (1 + 8),
    show immJ.extractLsb' 11 (1 + 8 + 1) ++ immJ.extractLsb' 1 10 = immJ.extractLsb' 1 (1 + 8 + 1 + 10) from
      extractLsb'_append_extractLsb' immJ 1 10 (1 + 8 + 1),
    show immJ.extractLsb' 1 (1 + 8 + 1 + 10) ++ immJ.extractLsb' 0 1 = immJ.extractLsb' 0 (1 + 8 + 1 + 10 + 1) from
      extractLsb'_append_extractLsb' immJ 0 1 (1 + 8 + 1 + 10)]
  exact extractLsb'_whole immJ

end Fields

/-! ## A word put together again from its fields

Encoding the fields of a word gives the word's 25 upper bits back, whatever its opcode is. -/

/-- Two adjoining fields of a word put together. -/
theorem join_fields (w : Word) (i l k : Nat) :
    w.extractLsb' (i + l) k ++ w.extractLsb' i l = w.extractLsb' i (k + l) :=
  extractLsb'_append_extractLsb' ..

theorem encodeR_fields (w : Word) :
    encodeR (funct7Field w) (funct3Field w) (rdField w) (rs1Field w) (rs2Field w) =
      w.extractLsb' 7 25 ++ opcodeOp := by
  unfold encodeR funct7Field funct3Field rdField rs1Field rs2Field
  rw [show w.extractLsb' 25 7 ++ w.extractLsb' 20 5 = w.extractLsb' 20 (7+5) from join_fields w 20 5 7,
   show w.extractLsb' 20 (7+5) ++ w.extractLsb' 15 5 = w.extractLsb' 15 (7+5+5) from join_fields w 15 5 12,
   show w.extractLsb' 15 (7+5+5) ++ w.extractLsb' 12 3 = w.extractLsb' 12 (7+5+5+3) from join_fields w 12 3 17,
   show w.extractLsb' 12 (7+5+5+3) ++ w.extractLsb' 7 5 = w.extractLsb' 7 (7+5+5+3+5) from join_fields w 7 5 20]

/-- A word is its 25 upper bits followed by its opcode. -/
theorem word_of_opcode (w : Word) (op : BitVec 7) (h : opcodeField w = op) : (w.extractLsb' 7 25 ++ op) = w := by
  subst h
  exact (join_fields w 0 7 25).trans (extractLsb'_whole w)

theorem encodeShift_fields (w : Word) :
    encodeShift (funct7Field w) (funct3Field w) (rdField w) (rs1Field w) (shamtField w) =
      w.extractLsb' 7 25 ++ opcodeOpImm := by
  unfold encodeShift funct7Field funct3Field rdField rs1Field shamtField
  rw [show w.extractLsb' 25 7 ++ w.extractLsb' 20 5 = w.extractLsb' 20 (7+5) from join_fields w 20 5 7,
   show w.extractLsb' 20 (7+5) ++ w.extractLsb' 15 5 = w.extractLsb' 15 (7+5+5) from join_fields w 15 5 12,
   show w.extractLsb' 15 (7+5+5) ++ w.extractLsb' 12 3 = w.extractLsb' 12 (7+5+5+3) from join_fields w 12 3 17,
   show w.extractLsb' 12 (7+5+5+3) ++ w.extractLsb' 7 5 = w.extractLsb' 7 (7+5+5+3+5) from join_fields w 7 5 20]

theorem encodeI_fields (w : Word) (op : BitVec 7) :
    encodeI op (funct3Field w) (rdField w) (rs1Field w) (immIField w) =
      w.extractLsb' 7 25 ++ op := by
  unfold encodeI funct3Field rdField rs1Field immIField
  rw [show w.extractLsb' 20 12 ++ w.extractLsb' 15 5 = w.extractLsb' 15 (12+5) from join_fields w 15 5 12,
   show w.extractLsb' 15 (12+5) ++ w.extractLsb' 12 3 = w.extractLsb' 12 (12+5+3) from join_fields w 12 3 17,
   show w.extractLsb' 12 (12+5+3) ++ w.extractLsb' 7 5 = w.extractLsb' 7 (12+5+3+5) from join_fields w 7 5 20]

theorem encodeU_fields (w : Word) (op : BitVec 7) :
    encodeU op (rdField w) (immUField w) =
      w.extractLsb' 7 25 ++ op := by
  unfold encodeU rdField immUField
  rw [show w.extractLsb' 12 20 ++ w.extractLsb' 7 5 = w.extractLsb' 7 (20+5) from join_fields w 7 5 20]

theorem immSField_high (w : Word) : (immSField w).extractLsb' 5 7 = w.extractLsb' 25 7 := by
  unfold immSField
  rw [extractLsb'_append_high _ _ _ _ (by decide)]
  exact extractLsb'_whole _

theorem immSField_low (w : Word) : (immSField w).extractLsb' 0 5 = w.extractLsb' 7 5 := by
  unfold immSField
  rw [extractLsb'_append_low _ _ _ _ (by decide)]
  exact extractLsb'_whole _

theorem encodeS_fields (w : Word) :
    encodeS (funct3Field w) (rs1Field w) (rs2Field w) (immSField w) =
      w.extractLsb' 7 25 ++ opcodeStore := by
  unfold encodeS
  rw [immSField_high, immSField_low]
  unfold funct3Field rs1Field rs2Field
  rw [show w.extractLsb' 25 7 ++ w.extractLsb' 20 5 = w.extractLsb' 20 (7+5) from join_fields w 20 5 7,
   show w.extractLsb' 20 (7+5) ++ w.extractLsb' 15 5 = w.extractLsb' 15 (7+5+5) from join_fields w 15 5 12,
   show w.extractLsb' 15 (7+5+5) ++ w.extractLsb' 12 3 = w.extractLsb' 12 (7+5+5+3) from join_fields w 12 3 17,
   show w.extractLsb' 12 (7+5+5+3) ++ w.extractLsb' 7 5 = w.extractLsb' 7 (7+5+5+3+5) from join_fields w 7 5 20]

theorem immBField_from12 (w : Word) : (immBField w).extractLsb' 12 1 = w.extractLsb' 31 1 := by
  unfold immBField
  rw [extractLsb'_append_high _ _ _ _ (by decide), extractLsb'_append_high _ _ _ _ (by decide), extractLsb'_append_high _ _ _ _ (by decide), extractLsb'_append_high _ _ _ _ (by decide)]
  exact extractLsb'_whole _

theorem immBField_from11 (w : Word) : (immBField w).extractLsb' 11 1 = w.extractLsb' 7 1 := by
  unfold immBField
  rw [extractLsb'_append_high _ _ _ _ (by decide), extractLsb'_append_high _ _ _ _ (by decide), extractLsb'_append_high _ _ _ _ (by decide), extractLsb'_append_low _ _ _ _ (by decide)]
  exact extractLsb'_whole _

theorem immBField_from5 (w : Word) : (immBField w).extractLsb' 5 6 = w.extractLsb' 25 6 := by
  unfold immBField
  rw [extractLsb'_append_high _ _ _ _ (by decide), extractLsb'_append_high _ _ _ _ (by decide), extractLsb'_append_low _ _ _ _ (by decide)]
  exact extractLsb'_whole _

theorem immBField_from1 (w : Word) : (immBField w).extractLsb' 1 4 = w.extractLsb' 8 4 := by
  unfold immBField
  rw [extractLsb'_append_high _ _ _ _ (by decide), extractLsb'_append_low _ _ _ _ (by decide)]
  exact extractLsb'_whole _

theorem encodeB_fields (w : Word) :
    encodeB (funct3Field w) (rs1Field w) (rs2Field w) (immBField w) =
      w.extractLsb' 7 25 ++ opcodeBranch := by
  unfold encodeB
  rw [immBField_from12, immBField_from11, immBField_from5, immBField_from1]
  unfold funct3Field rs1Field rs2Field
  rw [show w.extractLsb' 31 1 ++ w.extractLsb' 25 6 = w.extractLsb' 25 (1+6) from join_fields w 25 6 1,
   show w.extractLsb' 25 (1+6) ++ w.extractLsb' 20 5 = w.extractLsb' 20 (1+6+5) from join_fields w 20 5 7,
   show w.extractLsb' 20 (1+6+5) ++ w.extractLsb' 15 5 = w.extractLsb' 15 (1+6+5+5) from join_fields w 15 5 12,
   show w.extractLsb' 15 (1+6+5+5) ++ w.extractLsb' 12 3 = w.extractLsb' 12 (1+6+5+5+3) from join_fields w 12 3 17,
   show w.extractLsb' 12 (1+6+5+5+3) ++ w.extractLsb' 8 4 = w.extractLsb' 8 (1+6+5+5+3+4) from join_fields w 8 4 20,
   show w.extractLsb' 8 (1+6+5+5+3+4) ++ w.extractLsb' 7 1 = w.extractLsb' 7 (1+6+5+5+3+4+1) from join_fields w 7 1 24]

theorem immJField_from20 (w : Word) : (immJField w).extractLsb' 20 1 = w.extractLsb' 31 1 := by
  unfold immJField
  rw [extractLsb'_append_high _ _ _ _ (by decide), extractLsb'_append_high _ _ _ _ (by decide), extractLsb'_append_high _ _ _ _ (by decide), extractLsb'_append_high _ _ _ _ (by decide)]
  exact extractLsb'_whole _

theorem immJField_from12 (w : Word) : (immJField w).extractLsb' 12 8 = w.extractLsb' 12 8 := by
  unfold immJField
  rw [extractLsb'_append_high _ _ _ _ (by decide), extractLsb'_append_high _ _ _ _ (by decide), extractLsb'_append_high _ _ _ _ (by decide), extractLsb'_append_low _ _ _ _ (by decide)]
  exact extractLsb'_whole _

theorem immJField_from11 (w : Word) : (immJField w).extractLsb' 11 1 = w.extractLsb' 20 1 := by
  unfold immJField
  rw [extractLsb'_append_high _ _ _ _ (by decide), extractLsb'_append_high _ _ _ _ (by decide), extractLsb'_append_low _ _ _ _ (by decide)]
  exact extractLsb'_whole _

theorem immJField_from1 (w : Word) : (immJField w).extractLsb' 1 10 = w.extractLsb' 21 10 := by
  unfold immJField
  rw [extractLsb'_append_high _ _ _ _ (by decide), extractLsb'_append_low _ _ _ _ (by decide)]
  exact extractLsb'_whole _

theorem encodeJ_fields (w : Word) :
    encodeJ (rdField w) (immJField w) =
      w.extractLsb' 7 25 ++ opcodeJal := by
  unfold encodeJ
  rw [immJField_from20, immJField_from12, immJField_from11, immJField_from1]
  unfold rdField
  rw [show w.extractLsb' 31 1 ++ w.extractLsb' 21 10 = w.extractLsb' 21 (1+10) from join_fields w 21 10 1,
   show w.extractLsb' 21 (1+10) ++ w.extractLsb' 20 1 = w.extractLsb' 20 (1+10+1) from join_fields w 20 1 11,
   show w.extractLsb' 20 (1+10+1) ++ w.extractLsb' 12 8 = w.extractLsb' 12 (1+10+1+8) from join_fields w 12 8 12,
   show w.extractLsb' 12 (1+10+1+8) ++ w.extractLsb' 7 5 = w.extractLsb' 7 (1+10+1+8+5) from join_fields w 7 5 20]

/-- The displacement the decoder puts together is even (R81). -/
theorem evenDisplacement_immBField (w : Word) : evenDisplacement (immBField w) = true := by
  unfold evenDisplacement immBField
  rw [BitVec.getLsbD_append]
  rfl

/-- The displacement the decoder puts together is even (R83). -/
theorem evenDisplacement_immJField (w : Word) : evenDisplacement (immJField w) = true := by
  unfold evenDisplacement immJField
  rw [BitVec.getLsbD_append]
  rfl

/-! ## The opcode table -/

/-- No word is covered by two rows. -/
theorem opcodeRows_disjoint :
    opcodeRows.Pairwise fun r q => r.mask &&& q.mask &&& (r.pattern ^^^ q.pattern) ≠ 0 := by
  decide

end Sys2Proof
end

