-- ==== Sys2Proof/Laws/State.lean ====
section
/-! SUPPORT. One lemma per field per update of the state, so that no proof unfolds a record update. -/

namespace Sys2Proof.Machine

section Updates
variable (s : State) (v : Word) (m : Memory) (r : Vector Word 32) (o : StepOutcome)

@[simp] theorem State.setPc_regs : (s.setPc v).regs = s.regs := rfl
@[simp] theorem State.setPc_pc : (s.setPc v).pc = v := rfl
@[simp] theorem State.setPc_mem : (s.setPc v).mem = s.mem := rfl
@[simp] theorem State.setPc_memWords : (s.setPc v).memWords = s.memWords := rfl
@[simp] theorem State.setPc_program : (s.setPc v).program = s.program := rfl
@[simp] theorem State.setPc_params : (s.setPc v).params = s.params := rfl
@[simp] theorem State.setPc_lastOutcome : (s.setPc v).lastOutcome = s.lastOutcome := rfl

@[simp] theorem State.setMem_regs : (s.setMem m).regs = s.regs := rfl
@[simp] theorem State.setMem_pc : (s.setMem m).pc = s.pc := rfl
@[simp] theorem State.setMem_mem : (s.setMem m).mem = m := rfl
@[simp] theorem State.setMem_memWords : (s.setMem m).memWords = s.memWords := rfl
@[simp] theorem State.setMem_program : (s.setMem m).program = s.program := rfl
@[simp] theorem State.setMem_params : (s.setMem m).params = s.params := rfl
@[simp] theorem State.setMem_lastOutcome : (s.setMem m).lastOutcome = s.lastOutcome := rfl

@[simp] theorem State.setRegs_regs : (s.setRegs r).regs = r := rfl
@[simp] theorem State.setRegs_pc : (s.setRegs r).pc = s.pc := rfl
@[simp] theorem State.setRegs_mem : (s.setRegs r).mem = s.mem := rfl
@[simp] theorem State.setRegs_memWords : (s.setRegs r).memWords = s.memWords := rfl
@[simp] theorem State.setRegs_program : (s.setRegs r).program = s.program := rfl
@[simp] theorem State.setRegs_params : (s.setRegs r).params = s.params := rfl
@[simp] theorem State.setRegs_lastOutcome : (s.setRegs r).lastOutcome = s.lastOutcome := rfl

@[simp] theorem State.setOutcome_regs : (s.setOutcome o).regs = s.regs := rfl
@[simp] theorem State.setOutcome_pc : (s.setOutcome o).pc = s.pc := rfl
@[simp] theorem State.setOutcome_mem : (s.setOutcome o).mem = s.mem := rfl
@[simp] theorem State.setOutcome_memWords : (s.setOutcome o).memWords = s.memWords := rfl
@[simp] theorem State.setOutcome_program : (s.setOutcome o).program = s.program := rfl
@[simp] theorem State.setOutcome_params : (s.setOutcome o).params = s.params := rfl
@[simp] theorem State.setOutcome_lastOutcome : (s.setOutcome o).lastOutcome = some o := rfl

end Updates

/-! ## Registers -/

section Registers
variable (s : State) (i j : RegIdx) (v : Word)

@[simp] theorem readReg_zero : readReg s 0#5 = 0#32 := rfl

@[simp] theorem readReg_setPc : readReg (s.setPc v) i = readReg s i := rfl
@[simp] theorem readReg_setMem (m : Memory) : readReg (s.setMem m) i = readReg s i := rfl
@[simp] theorem readReg_setOutcome (o : StepOutcome) : readReg (s.setOutcome o) i = readReg s i := rfl

/-- Registers with equal slots read the same. -/
theorem readReg_congr {s t : State} (h : s.regs = t.regs) (i : RegIdx) : readReg s i = readReg t i := by
  simp only [readReg, h]

/-- Read after write: the written register reads the value, x0 reads 0, every other register is unchanged (R21). -/
theorem readReg_writeReg : readReg (writeReg s i v) j = if j = 0 then 0 else if j = i then v else readReg s j := by
  by_cases hi : i = 0
  · subst hi
    simp only [writeReg, if_true, readReg]
    split <;> simp_all
  · simp only [writeReg, if_neg hi, readReg, State.setRegs_regs]
    by_cases hj : j = 0
    · simp [hj]
    · simp only [if_neg hj, Vector.getElem_set]
      by_cases h : i = j
      · simp [h]
      · rw [if_neg (Ne.symm h), if_neg fun h' => h (BitVec.eq_of_toNat_eq h')]

@[simp] theorem writeReg_pc : (writeReg s i v).pc = s.pc := by unfold writeReg; split <;> rfl
@[simp] theorem writeReg_mem : (writeReg s i v).mem = s.mem := by unfold writeReg; split <;> rfl
@[simp] theorem writeReg_memWords : (writeReg s i v).memWords = s.memWords := by unfold writeReg; split <;> rfl
@[simp] theorem writeReg_program : (writeReg s i v).program = s.program := by unfold writeReg; split <;> rfl
@[simp] theorem writeReg_params : (writeReg s i v).params = s.params := by unfold writeReg; split <;> rfl

/-- The slot of x0 is never written. -/
@[simp] theorem writeReg_zeroSlot : (writeReg s i v).regs[0] = s.regs[0] := by
  unfold writeReg
  split
  · rfl
  · rename_i h
    have : i.toNat ≠ 0 := fun h' => h (BitVec.eq_of_toNat_eq (by simpa using h'))
    simp [this]

/-- Registers all at 0 read 0. -/
theorem readReg_cleared : readReg (s.setRegs (Vector.replicate 32 0)) i = 0 := by
  simp [readReg]

end Registers

end Sys2Proof.Machine
end

