-- ==== Sys2Proof/Laws/Memory.lean ====
section
/-! SUPPORT. The laws of the data memory: read after write, the canonical form, and the bytes of a wide access. -/

namespace Sys2Proof.Machine

/-! ## One byte -/

@[simp] theorem Memory.readByte_nil (a : Nat) : Memory.readByte [] a = unlistedByte := rfl

theorem Memory.readByte_erase (m : Memory) (a b : Nat) :
    Memory.readByte (Memory.erase m a) b = if b = a then unlistedByte else Memory.readByte m b := by
  induction m with
  | nil => simp [Memory.erase]
  | cons c rest ih =>
    simp only [Memory.erase] at ih
    by_cases hc : c.1 = a
    · simp only [Memory.erase, List.filter_cons, hc, bne_self_eq_false, Bool.false_eq_true, if_false, ih,
        Memory.readByte]
      by_cases hb : b = a
      · simp [hb]
      · simp [hb, Ne.symm hb]
    · simp only [Memory.erase, List.filter_cons, bne_iff_ne, ne_eq, hc, not_false_eq_true, if_true,
        Memory.readByte, ih]
      by_cases hb : b = a
      · simp [hb, hc]
      · simp [hb]

theorem Memory.readByte_insert (m : Memory) (a b : Nat) (v : Byte) (h : ∀ c ∈ m, c.1 ≠ a) :
    Memory.readByte (Memory.insert m a v) b = if b = a then v else Memory.readByte m b := by
  induction m with
  | nil =>
    simp only [Memory.insert, Memory.readByte]
    by_cases hb : b = a
    · simp [hb]
    · simp [hb, Ne.symm hb]
  | cons c rest ih =>
    have hc : c.1 ≠ a := h c List.mem_cons_self
    have ih := ih fun d hd => h d (List.mem_cons_of_mem _ hd)
    simp only [Memory.insert]
    split
    · simp only [Memory.readByte]
      by_cases hb : b = a
      · simp [hb]
      · simp [hb, Ne.symm hb]
    · simp only [Memory.readByte, ih]
      by_cases hb : b = a
      · simp [hb, hc]
      · simp [hb]

theorem Memory.mem_erase {m : Memory} {a : Nat} {c : Host.Cell} :
    c ∈ Memory.erase m a ↔ c ∈ m ∧ c.1 ≠ a := by
  simp [Memory.erase]

/-- Read after write of one byte, in any memory (R46). -/
theorem Memory.readByte_writeByte (m : Memory) (a b : Nat) (v : Byte) :
    Memory.readByte (Memory.writeByte m a v) b = if b = a then v else Memory.readByte m b := by
  unfold Memory.writeByte
  split
  · rename_i h
    rw [Memory.readByte_erase, h]
  · rw [Memory.readByte_insert _ _ _ _ fun c hc => (Memory.mem_erase.1 hc).2, Memory.readByte_erase]
    by_cases hb : b = a <;> simp [hb]

/-! ## The canonical form -/

theorem Memory.mem_insert {m : Memory} {a : Nat} {v : Byte} {c : Host.Cell} :
    c ∈ Memory.insert m a v ↔ c = (a, v) ∨ c ∈ m := by
  induction m with
  | nil => simp [Memory.insert]
  | cons d rest ih =>
    simp only [Memory.insert]
    split
    · simp
    · simp only [List.mem_cons, ih]
      tauto

theorem Memory.wf_nil : Memory.wf [] := by simp [Memory.wf]

theorem Memory.wf_erase {m : Memory} (h : m.wf) (a : Nat) : (Memory.erase m a).wf :=
  ⟨h.1.filter _, fun c hc => h.2 c (Memory.mem_erase.1 hc).1⟩

theorem Memory.wf_insert {m : Memory} (h : m.wf) {a : Nat} {v : Byte} (hv : v ≠ unlistedByte)
    (ha : ∀ c ∈ m, c.1 ≠ a) : (Memory.insert m a v).wf := by
  refine ⟨?_, fun c hc => ?_⟩
  · have hs := h.1
    clear h
    induction m with
    | nil => simp [Memory.insert]
    | cons d rest ih =>
      obtain ⟨hd, hrest⟩ := List.pairwise_cons.1 hs
      have hda : d.1 ≠ a := ha d List.mem_cons_self
      simp only [Memory.insert]
      split
      · rename_i hlt
        refine List.pairwise_cons.2 ⟨fun c hc => ?_, hs⟩
        rcases List.mem_cons.1 hc with rfl | hc
        · exact hlt
        · exact lt_trans hlt (hd c hc)
      · rename_i hlt
        refine List.pairwise_cons.2 ⟨fun c hc => ?_, ih (fun c hc => ha c (List.mem_cons_of_mem _ hc)) hrest⟩
        rcases Memory.mem_insert.1 hc with rfl | hc
        · simp only at hlt ⊢
          omega
        · exact hd c hc
  · rcases Memory.mem_insert.1 hc with rfl | hc
    · exact hv
    · exact h.2 c hc

/-- A byte write keeps the canonical form. -/
theorem Memory.wf_writeByte {m : Memory} (h : m.wf) (a : Nat) (v : Byte) : (Memory.writeByte m a v).wf := by
  unfold Memory.writeByte
  split
  · exact Memory.wf_erase h a
  · rename_i hv
    exact Memory.wf_insert (Memory.wf_erase h a) hv fun c hc => (Memory.mem_erase.1 hc).2

/-- A wide write keeps the canonical form. -/
theorem Memory.wf_writeBytes {m : Memory} (h : m.wf) (a : Nat) (v : Word) (n : Nat) :
    (Memory.writeBytes m a v n).wf := by
  induction n generalizing m a v with
  | zero => exact h
  | succ n ih => exact ih (Memory.wf_writeByte h a _) _ _

theorem Memory.wf_filter {m : Memory} (h : m.wf) (p : Host.Cell → Bool) : Memory.wf (m.filter p) :=
  ⟨h.1.filter _, fun c hc => h.2 c (List.mem_filter.1 hc).1⟩

/-- A byte write lists no address but the written one and those listed before. -/
theorem Memory.mem_writeByte {m : Memory} {a : Nat} {v : Byte} {c : Host.Cell} (h : c ∈ Memory.writeByte m a v) :
    c.1 = a ∨ c ∈ m := by
  unfold Memory.writeByte at h
  split at h
  · exact .inr (Memory.mem_erase.1 h).1
  · rcases Memory.mem_insert.1 h with rfl | h
    · exact .inl rfl
    · exact .inr (Memory.mem_erase.1 h).1

/-- A wide write lists no address but the written ones and those listed before. -/
theorem Memory.mem_writeBytes {m : Memory} {a : Nat} {v : Word} {n : Nat} {c : Host.Cell}
    (h : c ∈ Memory.writeBytes m a v n) : (a ≤ c.1 ∧ c.1 < a + n) ∨ c ∈ m := by
  induction n generalizing m a v with
  | zero => exact .inr h
  | succ n ih =>
    rcases ih h with h | h
    · exact .inl ⟨by omega, by omega⟩
    · rcases Memory.mem_writeByte h with h | h
      · exact .inl ⟨by omega, by omega⟩
      · exact .inr h

/-! ## Wide accesses -/

/-- What every byte reads after a wide write (R46). -/
theorem Memory.readByte_writeBytes (m : Memory) (a : Nat) (v : Word) (n b : Nat) :
    Memory.readByte (Memory.writeBytes m a v n) b =
      if a ≤ b ∧ b < a + n then v.extractLsb' (8 * (b - a)) 8 else Memory.readByte m b := by
  induction n generalizing m a v with
  | zero =>
    rw [if_neg (by omega)]
    rfl
  | succ n ih =>
    simp only [Memory.writeBytes, ih, Memory.readByte_writeByte]
    by_cases h1 : a + 1 ≤ b ∧ b < a + 1 + n
    · have h2 : a ≤ b ∧ b < a + (n + 1) := by omega
      rw [if_pos h1, if_pos h2]
      have : 8 * (b - a) = 8 + 8 * (b - (a + 1)) := by omega
      rw [this]
      ext k hk
      simp only [BitVec.getElem_extractLsb', BitVec.getLsbD_ushiftRight]
      congr 1
      omega
    · rw [if_neg h1]
      by_cases h2 : b = a
      · subst h2
        have : b ≤ b ∧ b < b + (n + 1) := by omega
        rw [if_pos rfl, if_pos this]
        ext k hk
        simp
      · rw [if_neg h2, if_neg (by omega)]

/-- A wide read depends only on the bytes it reads. -/
theorem Memory.readBytes_congr {m m' : Memory} {a n : Nat}
    (h : ∀ k, k < n → Memory.readByte m (a + k) = Memory.readByte m' (a + k)) :
    Memory.readBytes m a n = Memory.readBytes m' a n := by
  induction n generalizing a with
  | zero => rfl
  | succ n ih =>
    simp only [Memory.readBytes]
    rw [show Memory.readByte m a = Memory.readByte m' a from h 0 (by omega),
      ih fun k hk => by simpa [Nat.add_comm, Nat.add_left_comm] using h (k + 1) (by omega)]

theorem Memory.readBytes_one (m : Memory) (a : Nat) : Memory.readBytes m a 1 = (Memory.readByte m a).setWidth 32 := by
  simp [Memory.readBytes]

/-- Bit k of a wide read is bit k mod 8 of byte k div 8 (R45). -/
theorem Memory.getLsbD_readBytes (m : Memory) (a n k : Nat) :
    (Memory.readBytes m a n).getLsbD k =
      (decide (k < 32) && decide (k < 8 * n) && (Memory.readByte m (a + k / 8)).getLsbD (k % 8)) := by
  induction n generalizing a k with
  | zero => simp [Memory.readBytes]
  | succ n ih =>
    simp only [Memory.readBytes, BitVec.getLsbD_or, BitVec.getLsbD_setWidth, BitVec.getLsbD_shiftLeft, ih]
    by_cases h32 : k < 32
    · by_cases h8 : k < 8
      · have h1 : k / 8 = 0 := by omega
        have h2 : k % 8 = k := by omega
        have h3 : k < 8 * (n + 1) := by omega
        simp [h32, h8, h1, h2, h3]
      · have h1 : a + 1 + (k - 8) / 8 = a + k / 8 := by omega
        have h2 : (k - 8) % 8 = k % 8 := by omega
        have h3 : k - 8 < 8 * n ↔ k < 8 * (n + 1) := by omega
        have h4 : k - 8 < 32 := by omega
        have h5 : (Memory.readByte m a).getLsbD k = false := BitVec.getLsbD_of_ge _ _ (by omega)
        simp [h32, h8, h1, h2, h3, h4, h5]
    · simp [h32]

/-- Two bytes, the lower address in the lower half (R45). -/
theorem Memory.readBytes_two (m : Memory) (a : Nat) :
    Memory.readBytes m a 2 = (Memory.readByte m (a + 1) ++ Memory.readByte m a).setWidth 32 := by
  apply BitVec.eq_of_getLsbD_eq
  intro k hk
  rw [Memory.getLsbD_readBytes, BitVec.getLsbD_setWidth, BitVec.getLsbD_append]
  by_cases h : k < 8
  · simp [h, hk, show k < 16 by omega, show k / 8 = 0 by omega, show k % 8 = k by omega]
  · by_cases h' : k < 16
    · simp [h, hk, h', show k / 8 = 1 by omega, show k % 8 = k - 8 by omega]
    · have : (Memory.readByte m (a + 1)).getLsbD (k - 8) = false := BitVec.getLsbD_of_ge _ _ (by omega)
      simp [h, h', this]

/-- Four bytes, the lowest address in the lowest byte (R45). -/
theorem Memory.readBytes_four (m : Memory) (a : Nat) :
    Memory.readBytes m a 4 =
      Memory.readByte m (a + 3) ++ Memory.readByte m (a + 2) ++ Memory.readByte m (a + 1) ++ Memory.readByte m a := by
  apply BitVec.eq_of_getLsbD_eq
  intro k hk
  rw [Memory.getLsbD_readBytes, BitVec.getLsbD_append, BitVec.getLsbD_append, BitVec.getLsbD_append]
  by_cases h0 : k < 8
  · simp [h0, hk, show k / 8 = 0 by omega, show k % 8 = k by omega]
  · by_cases h1 : k < 16
    · simp [h0, hk, show k - 8 < 8 by omega, show k / 8 = 1 by omega, show k % 8 = k - 8 by omega]
    · by_cases h2 : k < 24
      · simp [h0, hk, show ¬ k - 8 < 8 by omega, show k - 8 - 8 < 8 by omega, show k / 8 = 2 by omega,
          show k % 8 = k - 8 - 8 by omega]
      · simp [h0, hk, show ¬ k - 8 < 8 by omega, show ¬ k - 8 - 8 < 8 by omega, show k / 8 = 3 by omega,
          show k % 8 = k - 8 - 8 - 8 by omega]

/-! ## Resizing -/

/-- A memory cut off at `n` reads as before below `n` and as unlisted from there on (R52). -/
theorem Memory.readByte_filter_lt (m : Memory) (n a : Nat) :
    Memory.readByte (m.filter fun c => decide (c.1 < n)) a = if a < n then Memory.readByte m a else unlistedByte := by
  induction m with
  | nil => simp
  | cons c rest ih =>
    simp only [List.filter_cons, Memory.readByte]
    by_cases hc : c.1 < n
    · by_cases ha : c.1 = a
      · simp [ha, Memory.readByte, ha ▸ hc]
      · simp [hc, ha, Memory.readByte, ih]
    · by_cases ha : c.1 = a
      · simp [hc, ih, ha ▸ hc]
      · simp [hc, ha, ih]

/-- A memory that lists nothing from `n` on reads as unlisted there. -/
theorem Memory.readByte_of_inBounds {m : Memory} {n a : Nat} (h : ∀ c ∈ m, c.1 < n) (ha : n ≤ a) :
    Memory.readByte m a = unlistedByte := by
  induction m with
  | nil => rfl
  | cons c rest ih =>
    have hc := h c List.mem_cons_self
    rw [Memory.readByte, if_neg (by omega)]
    exact ih fun d hd => h d (List.mem_cons_of_mem _ hd)

end Sys2Proof.Machine
end

