-- ==== Sys2Proof/Laws/Ops.lean ====
section
/-! SUPPORT. What the shared operations do, said once: the commit of an effect, the error reset, the end of the program, and the
operands. Proofs about instructions cite these and do not unfold the operations. -/

namespace Sys2Proof.Machine

/-! ## The commit of an effect -/

section Commit
variable (e : Effect) (s : State)

@[simp] theorem applyEffect_pc : (applyEffect e s).pc = e.nextPc := rfl

theorem applyEffect_mem : (applyEffect e s).mem = (applyMemWrite s e.memWrite).mem := by
  unfold applyEffect applyRegWrite
  split <;> simp

@[simp] theorem commit_pc : (commit e s).pc = e.nextPc := rfl

@[simp] theorem commit_lastOutcome :
    (commit e s).lastOutcome = some (successOutcome e (applyEffect e s)) := rfl

@[simp] theorem commit_memWords : (commit e s).memWords = s.memWords := by
  unfold commit applyEffect applyRegWrite applyMemWrite memWrite
  split <;> split <;> simp

@[simp] theorem commit_program : (commit e s).program = s.program := by
  unfold commit applyEffect applyRegWrite applyMemWrite memWrite
  split <;> split <;> simp

@[simp] theorem commit_params : (commit e s).params = s.params := by
  unfold commit applyEffect applyRegWrite applyMemWrite memWrite
  split <;> split <;> simp

/-- The memory after a commit: the bytes of the memory write, if there is one (R124). -/
theorem commit_mem : (commit e s).mem = (applyMemWrite s e.memWrite).mem := applyEffect_mem e s

@[simp] theorem commit_zeroSlot : (commit e s).regs[0] = s.regs[0] := by
  unfold commit applyEffect applyRegWrite applyMemWrite memWrite
  split <;> split <;> simp

theorem readReg_applyMemWrite (w : Option MemWrite) (r : RegIdx) : readReg (applyMemWrite s w) r = readReg s r := by
  cases w <;> rfl

/-- The registers after a commit: the register write, if there is one; x0 reads 0 (R124). -/
theorem readReg_commit (r : RegIdx) :
    readReg (commit e s) r =
      match e.regWrite with
      | none => readReg s r
      | some (i, v) => if r = 0 then 0 else if r = i then v else readReg s r := by
  simp only [commit, applyEffect, readReg_setOutcome, readReg_setPc]
  cases e.regWrite with
  | none => exact readReg_applyMemWrite s _ r
  | some w => simp only [applyRegWrite, readReg_writeReg, readReg_applyMemWrite]

@[simp] theorem readReg_applyEffect (r : RegIdx) : readReg (applyEffect e s) r = readReg (commit e s) r := rfl

end Commit

/-- What every byte reads after a commit: the bytes of the memory write, if there is one. -/
theorem readByte_commit (e : Effect) (s : State) (a : Nat) :
    Memory.readByte (commit e s).mem a =
      match e.memWrite with
      | none => Memory.readByte s.mem a
      | some w =>
        if w.address.toNat ≤ a ∧ a < w.address.toNat + w.width.bytes then
          w.value.extractLsb' (8 * (a - w.address.toNat)) 8
        else Memory.readByte s.mem a := by
  rw [commit_mem]
  cases e.memWrite with
  | none => rfl
  | some w => exact Memory.readByte_writeBytes ..

/-- The memory after a commit is canonical when it was. -/
theorem wf_commit (e : Effect) (s : State) (h : s.mem.wf) : (commit e s).mem.wf := by
  rw [commit_mem]
  unfold applyMemWrite
  split
  · exact h
  · exact Memory.wf_writeBytes h ..

/-- A commit whose memory write passes the check lists no byte at or beyond MEM_BYTES when there was none. -/
theorem inBounds_commit (e : Effect) (s : State) (h : ∀ c ∈ s.mem, c.1 < memBytes s)
    (hw : ∀ w, e.memWrite = some w → accessOk s w.address w.width.bytes = true) :
    ∀ c ∈ (commit e s).mem, c.1 < memBytes (commit e s) := by
  have hb : memBytes (commit e s) = memBytes s := by simp [memBytes]
  rw [hb, commit_mem]
  unfold applyMemWrite
  split
  · exact h
  · rename_i w hsome
    have hok := hw w hsome
    simp only [accessOk, Bool.and_eq_true, decide_eq_true_eq] at hok
    intro c hc
    rcases Memory.mem_writeBytes hc with hc | hc
    · omega
    · exact h c hc

/-- The access check in the words of R44. -/
theorem accessOk_iff (s : State) (ea : Word) (n : Nat) :
    accessOk s ea n = true ↔
      ea.toNat + n ≤ 4 * s.memWords ∧ (s.params.misalignedData = .splitLe ∨ ea.toNat % n = 0) := by
  simp only [accessOk, Bool.and_eq_true, Bool.or_eq_true, decide_eq_true_eq]
  rfl

/-! ## The error reset and the end of the program -/

section Errors
variable (err : ExecutionError) (s : State) (r : RegIdx)

@[simp] theorem errorStep_regs : (errorStep err s).regs = Vector.replicate 32 0 := rfl
@[simp] theorem errorStep_pc : (errorStep err s).pc = 0 := rfl
@[simp] theorem errorStep_mem : (errorStep err s).mem = s.mem := rfl
@[simp] theorem errorStep_memWords : (errorStep err s).memWords = s.memWords := rfl
@[simp] theorem errorStep_program : (errorStep err s).program = s.program := rfl
@[simp] theorem errorStep_params : (errorStep err s).params = s.params := rfl
@[simp] theorem errorStep_lastOutcome :
    (errorStep err s).lastOutcome = some (errorOutcome err (fetchIndex s)) := rfl
@[simp] theorem readReg_errorStep : readReg (errorStep err s) r = 0 := readReg_cleared s r

@[simp] theorem endOfProgram_regs : (endOfProgram s).regs = s.regs := rfl
@[simp] theorem endOfProgram_pc : (endOfProgram s).pc = s.pc := rfl
@[simp] theorem endOfProgram_mem : (endOfProgram s).mem = s.mem := rfl
@[simp] theorem endOfProgram_memWords : (endOfProgram s).memWords = s.memWords := rfl
@[simp] theorem endOfProgram_program : (endOfProgram s).program = s.program := rfl
@[simp] theorem endOfProgram_params : (endOfProgram s).params = s.params := rfl
@[simp] theorem readReg_endOfProgram : readReg (endOfProgram s) r = readReg s r := rfl

end Errors

/-! ## Operands -/

/-- A balanced remainder has the plain remainder's class. -/
theorem bmod_emod_word (x : Int) : x.bmod (2 ^ 32) % 2 ^ 32 = x % 2 ^ 32 := by
  exact_mod_cast Int.bmod_emod (x := x) (m := 2 ^ 32)

/-- The unsigned reading of a word from its signed one. -/
theorem toNat_eq_toInt_emod (v : Word) : (v.toNat : Int) = v.toInt % 2 ^ 32 := by
  rw [BitVec.toInt_eq_toNat_bmod, bmod_emod_word]
  have := v.isLt
  omega

/-- Adding a sign-extended displacement is adding its signed value, modulo 2^32. -/
theorem toNat_add_signExtend {n : Nat} (hn : n ≤ 32) (a : Word) (d : BitVec n) :
    ((a + d.signExtend 32).toNat : Int) = ((a.toNat : Int) + d.toInt) % 2 ^ 32 := by
  rw [toNat_eq_toInt_emod, BitVec.toInt_add, BitVec.toInt_signExtend_of_le hn, bmod_emod_word, toNat_eq_toInt_emod a]
  omega

/-- The 4-byte alignment of a sign-extended displacement is that of its signed value. -/
theorem aligned4_signExtend {n : Nat} (hn : n ≤ 32) (d : BitVec n) :
    aligned4 (d.signExtend 32) = true ↔ d.toInt % 4 = 0 := by
  have h1 : ((d.signExtend 32).toNat : Int) = d.toInt % 2 ^ 32 := by
    have := toNat_add_signExtend hn 0 d
    simpa using this
  simp only [aligned4, beq_iff_eq]
  omega

end Sys2Proof.Machine
end

