-- ==== Sys2Proof/Laws/PerInstr.lean ====
section
/-! SUPPORT. The statements made per instruction, one lemma per constructor. Family EncodedOpcode: the opcode field of the encoded
word is the one the opcode map gives the instruction (spec/30_encoding.md rule R86). -/

namespace Sys2Proof.Laws.EncodedOpcode

/-- The opcode the map gives the instruction (R86). -/
def opcodeOf : Instr → BitVec 7
  | .add _ _ _ => opcodeOp
  | .sub _ _ _ => opcodeOp
  | .sll _ _ _ => opcodeOp
  | .slt _ _ _ => opcodeOp
  | .sltu _ _ _ => opcodeOp
  | .xor _ _ _ => opcodeOp
  | .srl _ _ _ => opcodeOp
  | .sra _ _ _ => opcodeOp
  | .or _ _ _ => opcodeOp
  | .and _ _ _ => opcodeOp
  | .mul _ _ _ => opcodeOp
  | .mulh _ _ _ => opcodeOp
  | .mulhsu _ _ _ => opcodeOp
  | .mulhu _ _ _ => opcodeOp
  | .div _ _ _ => opcodeOp
  | .divu _ _ _ => opcodeOp
  | .rem _ _ _ => opcodeOp
  | .remu _ _ _ => opcodeOp
  | .addi _ _ _ => opcodeOpImm
  | .slti _ _ _ => opcodeOpImm
  | .sltiu _ _ _ => opcodeOpImm
  | .xori _ _ _ => opcodeOpImm
  | .ori _ _ _ => opcodeOpImm
  | .andi _ _ _ => opcodeOpImm
  | .slli _ _ _ => opcodeOpImm
  | .srli _ _ _ => opcodeOpImm
  | .srai _ _ _ => opcodeOpImm
  | .lb _ _ _ => opcodeLoad
  | .lh _ _ _ => opcodeLoad
  | .lw _ _ _ => opcodeLoad
  | .lbu _ _ _ => opcodeLoad
  | .lhu _ _ _ => opcodeLoad
  | .sb _ _ _ => opcodeStore
  | .sh _ _ _ => opcodeStore
  | .sw _ _ _ => opcodeStore
  | .beq _ _ _ => opcodeBranch
  | .bne _ _ _ => opcodeBranch
  | .blt _ _ _ => opcodeBranch
  | .bge _ _ _ => opcodeBranch
  | .bltu _ _ _ => opcodeBranch
  | .bgeu _ _ _ => opcodeBranch
  | .jal _ _ => opcodeJal
  | .jalr _ _ _ => opcodeJalr
  | .lui _ _ => opcodeLui
  | .auipc _ _ => opcodeAuipc

def Statement (i : Instr) : Prop := opcodeField (encode i) = opcodeOf i

theorem add (rd rs1 rs2 : RegIdx) : Statement (.add rd rs1 rs2) := opcodeField_encodeR ..
theorem sub (rd rs1 rs2 : RegIdx) : Statement (.sub rd rs1 rs2) := opcodeField_encodeR ..
theorem sll (rd rs1 rs2 : RegIdx) : Statement (.sll rd rs1 rs2) := opcodeField_encodeR ..
theorem slt (rd rs1 rs2 : RegIdx) : Statement (.slt rd rs1 rs2) := opcodeField_encodeR ..
theorem sltu (rd rs1 rs2 : RegIdx) : Statement (.sltu rd rs1 rs2) := opcodeField_encodeR ..
theorem xor (rd rs1 rs2 : RegIdx) : Statement (.xor rd rs1 rs2) := opcodeField_encodeR ..
theorem srl (rd rs1 rs2 : RegIdx) : Statement (.srl rd rs1 rs2) := opcodeField_encodeR ..
theorem sra (rd rs1 rs2 : RegIdx) : Statement (.sra rd rs1 rs2) := opcodeField_encodeR ..
theorem or (rd rs1 rs2 : RegIdx) : Statement (.or rd rs1 rs2) := opcodeField_encodeR ..
theorem and (rd rs1 rs2 : RegIdx) : Statement (.and rd rs1 rs2) := opcodeField_encodeR ..
theorem mul (rd rs1 rs2 : RegIdx) : Statement (.mul rd rs1 rs2) := opcodeField_encodeR ..
theorem mulh (rd rs1 rs2 : RegIdx) : Statement (.mulh rd rs1 rs2) := opcodeField_encodeR ..
theorem mulhsu (rd rs1 rs2 : RegIdx) : Statement (.mulhsu rd rs1 rs2) := opcodeField_encodeR ..
theorem mulhu (rd rs1 rs2 : RegIdx) : Statement (.mulhu rd rs1 rs2) := opcodeField_encodeR ..
theorem div (rd rs1 rs2 : RegIdx) : Statement (.div rd rs1 rs2) := opcodeField_encodeR ..
theorem divu (rd rs1 rs2 : RegIdx) : Statement (.divu rd rs1 rs2) := opcodeField_encodeR ..
theorem rem (rd rs1 rs2 : RegIdx) : Statement (.rem rd rs1 rs2) := opcodeField_encodeR ..
theorem remu (rd rs1 rs2 : RegIdx) : Statement (.remu rd rs1 rs2) := opcodeField_encodeR ..
theorem addi (rd rs1 : RegIdx) (imm : BitVec 12) : Statement (.addi rd rs1 imm) := opcodeField_encodeI ..
theorem slti (rd rs1 : RegIdx) (imm : BitVec 12) : Statement (.slti rd rs1 imm) := opcodeField_encodeI ..
theorem sltiu (rd rs1 : RegIdx) (imm : BitVec 12) : Statement (.sltiu rd rs1 imm) := opcodeField_encodeI ..
theorem xori (rd rs1 : RegIdx) (imm : BitVec 12) : Statement (.xori rd rs1 imm) := opcodeField_encodeI ..
theorem ori (rd rs1 : RegIdx) (imm : BitVec 12) : Statement (.ori rd rs1 imm) := opcodeField_encodeI ..
theorem andi (rd rs1 : RegIdx) (imm : BitVec 12) : Statement (.andi rd rs1 imm) := opcodeField_encodeI ..
theorem slli (rd rs1 : RegIdx) (shamt : BitVec 5) : Statement (.slli rd rs1 shamt) := opcodeField_encodeShift ..
theorem srli (rd rs1 : RegIdx) (shamt : BitVec 5) : Statement (.srli rd rs1 shamt) := opcodeField_encodeShift ..
theorem srai (rd rs1 : RegIdx) (shamt : BitVec 5) : Statement (.srai rd rs1 shamt) := opcodeField_encodeShift ..
theorem lb (rd rs1 : RegIdx) (imm : BitVec 12) : Statement (.lb rd rs1 imm) := opcodeField_encodeI ..
theorem lh (rd rs1 : RegIdx) (imm : BitVec 12) : Statement (.lh rd rs1 imm) := opcodeField_encodeI ..
theorem lw (rd rs1 : RegIdx) (imm : BitVec 12) : Statement (.lw rd rs1 imm) := opcodeField_encodeI ..
theorem lbu (rd rs1 : RegIdx) (imm : BitVec 12) : Statement (.lbu rd rs1 imm) := opcodeField_encodeI ..
theorem lhu (rd rs1 : RegIdx) (imm : BitVec 12) : Statement (.lhu rd rs1 imm) := opcodeField_encodeI ..
theorem sb (rs1 rs2 : RegIdx) (imm : BitVec 12) : Statement (.sb rs1 rs2 imm) := opcodeField_encodeS ..
theorem sh (rs1 rs2 : RegIdx) (imm : BitVec 12) : Statement (.sh rs1 rs2 imm) := opcodeField_encodeS ..
theorem sw (rs1 rs2 : RegIdx) (imm : BitVec 12) : Statement (.sw rs1 rs2 imm) := opcodeField_encodeS ..
theorem beq (rs1 rs2 : RegIdx) (imm : BitVec 13) : Statement (.beq rs1 rs2 imm) := opcodeField_encodeB ..
theorem bne (rs1 rs2 : RegIdx) (imm : BitVec 13) : Statement (.bne rs1 rs2 imm) := opcodeField_encodeB ..
theorem blt (rs1 rs2 : RegIdx) (imm : BitVec 13) : Statement (.blt rs1 rs2 imm) := opcodeField_encodeB ..
theorem bge (rs1 rs2 : RegIdx) (imm : BitVec 13) : Statement (.bge rs1 rs2 imm) := opcodeField_encodeB ..
theorem bltu (rs1 rs2 : RegIdx) (imm : BitVec 13) : Statement (.bltu rs1 rs2 imm) := opcodeField_encodeB ..
theorem bgeu (rs1 rs2 : RegIdx) (imm : BitVec 13) : Statement (.bgeu rs1 rs2 imm) := opcodeField_encodeB ..
theorem jal (rd : RegIdx) (imm : BitVec 21) : Statement (.jal rd imm) := opcodeField_encodeJ ..
theorem jalr (rd rs1 : RegIdx) (imm : BitVec 12) : Statement (.jalr rd rs1 imm) := opcodeField_encodeI ..
theorem lui (rd : RegIdx) (imm : BitVec 20) : Statement (.lui rd imm) := opcodeField_encodeU ..
theorem auipc (rd : RegIdx) (imm : BitVec 20) : Statement (.auipc rd imm) := opcodeField_encodeU ..

end Sys2Proof.Laws.EncodedOpcode
end

