-- ==== Sys2Proof/Laws/Step.lean ====
section
/-! SUPPORT. What one instruction and one step can do, said once (`exec_cases`, `step_cases`): every whole-machine rule follows
from these two, without unfolding an instruction. -/

namespace Sys2Proof.Machine

/-- What an effect of instruction `i` in state `s` is like: it writes the instruction's rd and no other register; it writes memory
exactly when the instruction is a store, at the store's effective address and width, and the access passed the check; the next pc
is aligned when the pc was, and is pc + 4 unless the instruction is a branch or a jump. -/
structure EffectFits (i : Instr) (s : State) (e : Effect) : Prop where
  register : e.regWrite.map Prod.fst = i.dest?
  store : e.memWrite.isSome = i.isStore
  access : ∀ w, e.memWrite = some w → accessOk s w.address w.width.bytes = true
  target : ∀ w, e.memWrite = some w → ∃ rs1 rs2 imm, w.address = effectiveAddress s rs1 imm ∧
    ((i = .sb rs1 rs2 imm ∧ w.width = .byte) ∨ (i = .sh rs1 rs2 imm ∧ w.width = .half) ∨
      (i = .sw rs1 rs2 imm ∧ w.width = .word))
  aligned : s.pc.toNat % 4 = 0 → e.nextPc.toNat % 4 = 0
  sequential : i.isControlTransfer = false → e.nextPc = seqPc s

/-- What executing instruction `i` in state `s` can answer. -/
inductive Answers (i : Instr) (s : State) : Host.Outcome State Fault Refusal → Prop where
  | completes (e : Effect) (h : EffectFits i s e) : Answers i s (.next (commit e s))
  | dividesByZero (rd rs1 rs2 : RegIdx) (hz : readReg s rs2 = 0)
      (hi : i = .div rd rs1 rs2 ∨ i = .divu rd rs1 rs2 ∨ i = .rem rd rs1 rs2 ∨ i = .remu rd rs1 rs2) :
      Answers i s (.next (errorStep .divisionByZero s))
  | accessFails (hi : i.isLoad = true ∨ i.isStore = true) : Answers i s (.next (errorStep .invalidMemoryAccess s))
  | misaligned (hi : i.isControlTransfer = true) : Answers i s (.next (errorStep .offsetNot32BitAligned s))
  | overflows (rd rs1 rs2 : RegIdx) (hi : i = .div rd rs1 rs2 ∨ i = .rem rd rs1 rs2)
      (h : divOverflowPair (readReg s rs1) (readReg s rs2) = true) (hp : s.params.divOverflow = .fault) :
      Answers i s (.fault (.divOverflowUnmodelled (fetchIndex s)))

theorem seqPc_aligned (s : State) (h : s.pc.toNat % 4 = 0) : (seqPc s).toNat % 4 = 0 := by
  simp only [seqPc, BitVec.toNat_add]
  simp
  omega

/-- An effect that writes rd and goes on to the next word. -/
theorem effectFits_reg {i : Instr} {s : State} (rd : RegIdx) (v : Word) (hd : i.dest? = some rd) (hs : i.isStore = false) :
    EffectFits i s { regWrite := some (rd, v), memWrite := none, nextPc := seqPc s } where
  register := hd.symm
  store := hs.symm
  access := by simp
  target := by simp
  aligned := seqPc_aligned s
  sequential _ := rfl

theorem answers_reg {i : Instr} {s : State} (rd : RegIdx) (v : Word) (hd : i.dest? = some rd) (hs : i.isStore = false) :
    Answers i s (completeReg rd v s) := .completes _ (effectFits_reg rd v hd hs)

theorem answers_load {i : Instr} {s : State} (w : AccessWidth) (ext : AccessWidth → Word → Word) (rd rs1 : RegIdx)
    (imm : BitVec 12) (hl : i.isLoad = true) (hd : i.dest? = some rd) (hs : i.isStore = false) :
    Answers i s (loadWith w ext rd rs1 imm s) := by
  unfold loadWith
  dsimp only
  split
  · exact answers_reg rd _ hd hs
  · exact .accessFails (.inl hl)

theorem answers_store {i : Instr} {s : State} (w : AccessWidth) (rs1 rs2 : RegIdx) (imm : BitVec 12)
    (hd : i.dest? = none) (hs : i.isStore = true)
    (hi : (i = .sb rs1 rs2 imm ∧ w = .byte) ∨ (i = .sh rs1 rs2 imm ∧ w = .half) ∨ (i = .sw rs1 rs2 imm ∧ w = .word)) :
    Answers i s (storeWith w rs1 rs2 imm s) := by
  unfold storeWith
  dsimp only
  split
  · rename_i h
    refine .completes _ ⟨hd.symm, hs.symm, ?_, ?_, seqPc_aligned s, fun _ => rfl⟩
    · intro w' hw
      cases hw
      exact h
    · intro w' hw
      cases hw
      exact ⟨rs1, rs2, imm, rfl, hi⟩
  · exact .accessFails (.inr hs)

theorem displaced_aligned {n : Nat} (hn : n ≤ 32) (a : Word) (d : BitVec n) (hd : aligned4 (d.signExtend 32) = true)
    (ha : a.toNat % 4 = 0) : (a + d.signExtend 32).toNat % 4 = 0 := by
  have h1 := toNat_add_signExtend hn a d
  have h2 := (aligned4_signExtend hn d).1 hd
  omega

theorem answers_branch {i : Instr} {s : State} (c : Bool) (imm : BitVec 13) (hd : i.dest? = none)
    (hs : i.isStore = false) (hc : i.isControlTransfer = true) : Answers i s (branchWith c imm s) := by
  unfold branchWith
  split
  · rename_i h
    refine .completes _ ⟨hd.symm, hs.symm, by simp, by simp, fun hp => ?_, by simp [hc]⟩
    cases c
    · exact seqPc_aligned s hp
    · exact displaced_aligned (by omega) s.pc imm h hp
  · exact .misaligned hc

theorem answers_unlessDivisorZero {i : Instr} {s : State} (rd rs1 rs2 : RegIdx) (body : Host.Outcome State Fault Refusal)
    (hi : i = .div rd rs1 rs2 ∨ i = .divu rd rs1 rs2 ∨ i = .rem rd rs1 rs2 ∨ i = .remu rd rs1 rs2)
    (h : Answers i s body) : Answers i s (unlessDivisorZero rs2 s body) := by
  unfold unlessDivisorZero
  split
  · rename_i hz
    exact .dividesByZero rd rs1 rs2 hz hi
  · exact h

theorem answers_divOverflow {i : Instr} {s : State} (rd rs1 rs2 : RegIdx) (v : Word)
    (hi : i = .div rd rs1 rs2 ∨ i = .rem rd rs1 rs2)
    (h : divOverflowPair (readReg s rs1) (readReg s rs2) = true) : Answers i s (divOverflow rd v s) := by
  unfold divOverflow
  split
  · rcases hi with rfl | rfl <;> exact answers_reg rd v rfl rfl
  · rename_i hp
    exact .overflows rd rs1 rs2 hi h hp

/-- Everything an instruction can do. -/
theorem exec_cases (i : Instr) (s : State) : Answers i s (exec i s) := by
  cases i with
  | div rd rs1 rs2 =>
    refine answers_unlessDivisorZero rd rs1 rs2 _ (by simp) ?_
    split
    · exact answers_divOverflow rd rs1 rs2 _ (by simp) ‹_›
    · exact answers_reg rd _ rfl rfl
  | rem rd rs1 rs2 =>
    refine answers_unlessDivisorZero rd rs1 rs2 _ (by simp) ?_
    split
    · exact answers_divOverflow rd rs1 rs2 _ (by simp) ‹_›
    · exact answers_reg rd _ rfl rfl
  | divu rd rs1 rs2 => exact answers_unlessDivisorZero rd rs1 rs2 _ (by simp) (answers_reg rd _ rfl rfl)
  | remu rd rs1 rs2 => exact answers_unlessDivisorZero rd rs1 rs2 _ (by simp) (answers_reg rd _ rfl rfl)
  | lb rd rs1 imm => exact answers_load _ _ rd rs1 imm rfl rfl rfl
  | lh rd rs1 imm => exact answers_load _ _ rd rs1 imm rfl rfl rfl
  | lw rd rs1 imm => exact answers_load _ _ rd rs1 imm rfl rfl rfl
  | lbu rd rs1 imm => exact answers_load _ _ rd rs1 imm rfl rfl rfl
  | lhu rd rs1 imm => exact answers_load _ _ rd rs1 imm rfl rfl rfl
  | sb rs1 rs2 imm => exact answers_store _ rs1 rs2 imm rfl rfl (by simp)
  | sh rs1 rs2 imm => exact answers_store _ rs1 rs2 imm rfl rfl (by simp)
  | sw rs1 rs2 imm => exact answers_store _ rs1 rs2 imm rfl rfl (by simp)
  | beq rs1 rs2 imm => exact answers_branch _ imm rfl rfl rfl
  | bne rs1 rs2 imm => exact answers_branch _ imm rfl rfl rfl
  | blt rs1 rs2 imm => exact answers_branch _ imm rfl rfl rfl
  | bge rs1 rs2 imm => exact answers_branch _ imm rfl rfl rfl
  | bltu rs1 rs2 imm => exact answers_branch _ imm rfl rfl rfl
  | bgeu rs1 rs2 imm => exact answers_branch _ imm rfl rfl rfl
  | jal rd imm =>
    simp only [exec, execJal]
    split
    · rename_i h
      exact .completes _ ⟨rfl, rfl, by simp, by simp, displaced_aligned (by omega) s.pc imm h, by simp [Instr.isControlTransfer]⟩
    · exact .misaligned rfl
  | jalr rd rs1 imm =>
    simp only [exec, execJalr]
    split
    · rename_i h
      exact .completes _ ⟨rfl, rfl, by simp, by simp, fun _ => by simpa [aligned4] using h, by simp [Instr.isControlTransfer]⟩
    · exact .misaligned rfl
  | _ => exact answers_reg _ _ rfl rfl

/-- Everything a step can do. -/
theorem step_cases (s : State) :
    (fetch s = none ∧ step s = .next (endOfProgram s)) ∨
    (∃ w, fetch s = some w ∧ decode w = .unsupported ∧ step s = .next (errorStep .unsupportedOpcode s)) ∨
    (∃ w i, fetch s = some w ∧ decode w = .instr i ∧ step s = exec i s) := by
  unfold step
  split
  · exact .inl ⟨by assumption, rfl⟩
  · rename_i w hw
    split
    · rename_i hd
      exact .inr (.inl ⟨w, hw, hd, rfl⟩)
    · rename_i i hd
      exact .inr (.inr ⟨w, i, hw, hd, rfl⟩)

/-- Where an execution error of a step comes from (R251). -/
inductive Raised (s : State) : ExecutionError → Prop where
  | unsupported (w : Word) (hf : fetch s = some w) (hd : decode w = .unsupported) : Raised s .unsupportedOpcode
  | divisor (w : Word) (i : Instr) (rd rs1 rs2 : RegIdx) (hf : fetch s = some w) (hd : decode w = .instr i)
      (hz : readReg s rs2 = 0) (hi : i = .div rd rs1 rs2 ∨ i = .divu rd rs1 rs2 ∨ i = .rem rd rs1 rs2 ∨ i = .remu rd rs1 rs2) :
      Raised s .divisionByZero
  | access (w : Word) (i : Instr) (hf : fetch s = some w) (hd : decode w = .instr i)
      (hi : i.isLoad = true ∨ i.isStore = true) : Raised s .invalidMemoryAccess
  | alignment (w : Word) (i : Instr) (hf : fetch s = some w) (hd : decode w = .instr i)
      (hi : i.isControlTransfer = true) : Raised s .offsetNot32BitAligned

/-- Everything the next state of a step can be: the end of the program, the error reset, or the commit of an effect that fits the
instruction. -/
theorem step_next_cases {s t : State} (h : step s = .next t) :
    (fetch s = none ∧ t = endOfProgram s) ∨
    (∃ e, Raised s e ∧ t = errorStep e s) ∨
    (∃ w i e, fetch s = some w ∧ decode w = .instr i ∧ EffectFits i s e ∧ t = commit e s) := by
  rcases step_cases s with ⟨hf, hs⟩ | ⟨w, hf, hd, hs⟩ | ⟨w, i, hf, hd, hs⟩
  · rw [hs] at h
    cases h
    exact .inl ⟨hf, rfl⟩
  · rw [hs] at h
    cases h
    exact .inr (.inl ⟨_, .unsupported w hf hd, rfl⟩)
  · have ha := exec_cases i s
    rw [← hs, h] at ha
    cases ha with
    | completes e he => exact .inr (.inr ⟨w, i, e, hf, hd, he, rfl⟩)
    | dividesByZero rd rs1 rs2 hz hi => exact .inr (.inl ⟨_, .divisor w i rd rs1 rs2 hf hd hz hi, rfl⟩)
    | accessFails hi => exact .inr (.inl ⟨_, .access w i hf hd hi, rfl⟩)
    | misaligned hi => exact .inr (.inl ⟨_, .alignment w i hf hd hi, rfl⟩)

/-- Fetch at or beyond the program's end gives nothing, and below it the word. -/
theorem fetch_eq_none_iff (s : State) : fetch s = none ↔ s.program.length ≤ s.pc.toNat / 4 := by
  simp [fetch, fetchIndex]

end Sys2Proof.Machine
end

