-- ==== Sys2Proof/Tests/Slice0.lean ====
section
/-! SUPPORT. The model's own tests: well-formedness, decoding, one step of every instruction with the results of
spec/95_test_vectors.md, the host commands, the assembler; and for every statement that has hypotheses a witness that meets
them. -/

open Sys2Proof Sys2Proof.Machine Sys2Proof.Claims

namespace Sys2Proof.Tests

/-! ## Helpers -/

/-- A state with a program, a pc, some registers and a memory. -/
def testState (params : Params) (program : List Word) (pc : Word) (regs : List (RegIdx × Word)) (mem : Memory) : State :=
  let s := State.create defaultMemWords params
  regs.foldl (fun s r => writeReg s r.1 r.2) ((({ s with program := program }).setPc pc).setMem mem)

/-- `w` at pc 0x10, as section 2 of the vectors runs it. -/
def at16 (params : Params) (w : Word) (regs : List (RegIdx × Word)) (mem : Memory) : State :=
  testState params [0x13, 0x13, 0x13, 0x13, w] 0x10 regs mem

/-- The state a step leads to, and the state itself where it stops. -/
def after (s : State) : State :=
  match step s with
  | .next t => t
  | .fault _ => s
  | .refused _ => s

def outcomeWith (params : Params) (w : Word) (regs : List (RegIdx × Word)) (mem : Memory) : Option StepOutcome :=
  (after (at16 params w regs mem)).lastOutcome

def outcomeAt16 (w : Word) (regs : List (RegIdx × Word)) (mem : Memory) : Option StepOutcome :=
  outcomeWith Params.hardware w regs mem

def stopsAt16 (params : Params) (w : Word) (regs : List (RegIdx × Word)) : Option Fault :=
  match step (at16 params w regs []) with
  | .fault f => some f
  | .next _ => none
  | .refused _ => none

def bytesAt16 (w : Word) (regs : List (RegIdx × Word)) (mem : Memory) (a : Nat) : List Byte :=
  [0, 1, 2, 3].map fun k => Memory.readByte (after (at16 Params.hardware w regs mem)).mem (a + k)

/-- `ok, reg x<r> = v, pc`. -/
def wrote (r : RegIdx) (v pc : Word) : StepOutcome := ⟨true, .none, none, some ⟨r, v⟩, pc, none⟩

/-- `ok, mem {a, v}, pc`. -/
def stored (a v pc : Word) : StepOutcome := ⟨true, .none, some ⟨a, v⟩, none, pc, none⟩

/-- `ok, pc`. -/
def moved (pc : Word) : StepOutcome := ⟨true, .none, none, none, pc, none⟩

/-- An error, pc 0 and the failing index. -/
def failed (e : ExecutionError) (index : Nat) : StepOutcome := ⟨false, e, none, none, 0, some index⟩

/-- The memory before the loads and stores of section 2.5. -/
def loadMemory : Memory :=
  [(0x100, 0x80), (0x101, 0xFF), (0x102, 0x34), (0x103, 0x12), (0x1FFC, 0xAA), (0x1FFD, 0xBB), (0x1FFE, 0xCC),
    (0x1FFF, 0xDD)]

/-! ## Well-formedness: a displacement whose bit 0 the word does not hold (R75, R77) -/

theorem test_wellFormed_refuses_odd_branch :
    (Instr.beq 1 2 7).wellFormed = false ∧ (Instr.bne 1 2 0x1FFF).wellFormed = false ∧
    (Instr.blt 1 2 1).wellFormed = false ∧ (Instr.bge 1 2 5).wellFormed = false ∧
    (Instr.bltu 1 2 9).wellFormed = false ∧ (Instr.bgeu 1 2 3).wellFormed = false := by
  decide

theorem test_wellFormed_refuses_odd_jal : (Instr.jal 1 0x1FFFFF).wellFormed = false := by
  decide

/-- An even displacement that is no multiple of 4 is well formed (R96). -/
theorem test_wellFormed_accepts_even : (Instr.beq 1 2 6).wellFormed = true ∧ (Instr.jal 1 6).wellFormed = true := by
  decide

/-! ## Decoding: every constructor by a word written out from its format's layout (R72-R77) and the opcode map (R86-R92) -/

/-- `funct7|rs2|rs1|funct3|rd|opcode` with rs2 = 19, rs1 = 6, rd = 27 (R72, R87). -/
theorem test_decode_register :
    decode 0b0000000_10011_00110_000_11011_0110011 = .instr (.add 27 6 19) ∧
    decode 0b0100000_10011_00110_000_11011_0110011 = .instr (.sub 27 6 19) ∧
    decode 0b0000000_10011_00110_001_11011_0110011 = .instr (.sll 27 6 19) ∧
    decode 0b0000000_10011_00110_010_11011_0110011 = .instr (.slt 27 6 19) ∧
    decode 0b0000000_10011_00110_011_11011_0110011 = .instr (.sltu 27 6 19) ∧
    decode 0b0000000_10011_00110_100_11011_0110011 = .instr (.xor 27 6 19) ∧
    decode 0b0000000_10011_00110_101_11011_0110011 = .instr (.srl 27 6 19) ∧
    decode 0b0100000_10011_00110_101_11011_0110011 = .instr (.sra 27 6 19) ∧
    decode 0b0000000_10011_00110_110_11011_0110011 = .instr (.or 27 6 19) ∧
    decode 0b0000000_10011_00110_111_11011_0110011 = .instr (.and 27 6 19) := by
  decide

/-- The same layout with funct7 0000001 (R87). -/
theorem test_decode_m_extension :
    decode 0b0000001_10011_00110_000_11011_0110011 = .instr (.mul 27 6 19) ∧
    decode 0b0000001_10011_00110_001_11011_0110011 = .instr (.mulh 27 6 19) ∧
    decode 0b0000001_10011_00110_010_11011_0110011 = .instr (.mulhsu 27 6 19) ∧
    decode 0b0000001_10011_00110_011_11011_0110011 = .instr (.mulhu 27 6 19) ∧
    decode 0b0000001_10011_00110_100_11011_0110011 = .instr (.div 27 6 19) ∧
    decode 0b0000001_10011_00110_101_11011_0110011 = .instr (.divu 27 6 19) ∧
    decode 0b0000001_10011_00110_110_11011_0110011 = .instr (.rem 27 6 19) ∧
    decode 0b0000001_10011_00110_111_11011_0110011 = .instr (.remu 27 6 19) := by
  decide

/-- `imm[11:0]|rs1|funct3|rd|opcode` (R73, R88). -/
theorem test_decode_immediate :
    decode 0b100000000101_00110_000_11011_0010011 = .instr (.addi 27 6 0x805) ∧
    decode 0b100000000101_00110_010_11011_0010011 = .instr (.slti 27 6 0x805) ∧
    decode 0b100000000101_00110_011_11011_0010011 = .instr (.sltiu 27 6 0x805) ∧
    decode 0b100000000101_00110_100_11011_0010011 = .instr (.xori 27 6 0x805) ∧
    decode 0b100000000101_00110_110_11011_0010011 = .instr (.ori 27 6 0x805) ∧
    decode 0b100000000101_00110_111_11011_0010011 = .instr (.andi 27 6 0x805) := by
  decide

/-- `funct7|shamt|rs1|funct3|rd|opcode` (R73, R88). -/
theorem test_decode_immediate_shift :
    decode 0b0000000_10011_00110_001_11011_0010011 = .instr (.slli 27 6 19) ∧
    decode 0b0000000_10011_00110_101_11011_0010011 = .instr (.srli 27 6 19) ∧
    decode 0b0100000_10011_00110_101_11011_0010011 = .instr (.srai 27 6 19) := by
  decide

/-- `imm[11:0]|rs1|funct3|rd|opcode` (R73, R89). -/
theorem test_decode_load :
    decode 0b100000000101_00110_000_11011_0000011 = .instr (.lb 27 6 0x805) ∧
    decode 0b100000000101_00110_001_11011_0000011 = .instr (.lh 27 6 0x805) ∧
    decode 0b100000000101_00110_010_11011_0000011 = .instr (.lw 27 6 0x805) ∧
    decode 0b100000000101_00110_100_11011_0000011 = .instr (.lbu 27 6 0x805) ∧
    decode 0b100000000101_00110_101_11011_0000011 = .instr (.lhu 27 6 0x805) := by
  decide

/-- `imm[11:5]|rs2|rs1|funct3|imm[4:0]|opcode` (R74, R90); 0xA65 is 1010011 00101. -/
theorem test_decode_store :
    decode 0b1010011_10011_00110_000_00101_0100011 = .instr (.sb 6 19 0xA65) ∧
    decode 0b1010011_10011_00110_001_00101_0100011 = .instr (.sh 6 19 0xA65) ∧
    decode 0b1010011_10011_00110_010_00101_0100011 = .instr (.sw 6 19 0xA65) := by
  decide

/-- `imm[12]|imm[10:5]|rs2|rs1|funct3|imm[4:1]|imm[11]|opcode` (R75, R91); bit 12 = 1, bit 11 = 0, bits 10..5 = 110100, bits
4..1 = 0110 make 0x168C. -/
theorem test_decode_branch :
    decode 0b1_110100_10011_00110_000_0110_0_1100011 = .instr (.beq 6 19 0x168C) ∧
    decode 0b1_110100_10011_00110_001_0110_0_1100011 = .instr (.bne 6 19 0x168C) ∧
    decode 0b1_110100_10011_00110_100_0110_0_1100011 = .instr (.blt 6 19 0x168C) ∧
    decode 0b1_110100_10011_00110_101_0110_0_1100011 = .instr (.bge 6 19 0x168C) ∧
    decode 0b1_110100_10011_00110_110_0110_0_1100011 = .instr (.bltu 6 19 0x168C) ∧
    decode 0b1_110100_10011_00110_111_0110_0_1100011 = .instr (.bgeu 6 19 0x168C) := by
  decide

/-- `imm[20]|imm[10:1]|imm[11]|imm[19:12]|rd|opcode` (R77): bit 20 = 1, bits 19..12 = 10100101, bit 11 = 0, bits 10..1 =
1100000010 make 0x1A5604; JALR is an I-type (R92). -/
theorem test_decode_jump :
    decode 0b1_1100000010_0_10100101_11011_1101111 = .instr (.jal 27 0x1A5604) ∧
    decode 0b100000000101_00110_000_11011_1100111 = .instr (.jalr 27 6 0x805) := by
  decide

/-- `imm[31:12]|rd|opcode` (R76, R92). -/
theorem test_decode_upper_immediate :
    decode 0b10000000000000000101_11011_0110111 = .instr (.lui 27 0x80005) ∧
    decode 0b10000000000000000101_11011_0010111 = .instr (.auipc 27 0x80005) := by
  decide

/-! ## One step of every instruction (spec/95_test_vectors.md section 2; the rows are named in each docstring) -/

/-- V-R3, V-R5. -/
theorem test_add :
    outcomeAt16 0x002081B3 [(1, 0x7FFFFFFF), (2, 0x00000001)] [] = some (wrote 3 0x80000000 0x14) ∧
    outcomeAt16 0x002081B3 [(1, 0xFFFFFFFF), (2, 0x00000001)] [] = some (wrote 3 0x00000000 0x14) := by
  decide

/-- V-R2, V-R4. -/
theorem test_sub :
    outcomeAt16 0x402081B3 [(1, 0x00000001), (2, 0x00000002)] [] = some (wrote 3 0xFFFFFFFF 0x14) ∧
    outcomeAt16 0x402081B3 [(1, 0x80000000), (2, 0x00000001)] [] = some (wrote 3 0x7FFFFFFF 0x14) := by
  decide

/-- V-R9, V-R10. -/
theorem test_sll :
    outcomeAt16 0x002091B3 [(1, 0x80000001), (2, 0x00000020)] [] = some (wrote 3 0x80000001 0x14) ∧
    outcomeAt16 0x002091B3 [(1, 0x80000001), (2, 0xFFFFFFE4)] [] = some (wrote 3 0x00000010 0x14) := by
  decide

/-- V-R4, V-R6. -/
theorem test_slt :
    outcomeAt16 0x0020A1B3 [(1, 0x80000000), (2, 0x00000001)] [] = some (wrote 3 0x00000001 0x14) ∧
    outcomeAt16 0x0020A1B3 [(1, 0x00000001), (2, 0xFFFFFFFF)] [] = some (wrote 3 0x00000000 0x14) := by
  decide

/-- V-R4, V-R6. -/
theorem test_sltu :
    outcomeAt16 0x0020B1B3 [(1, 0x80000000), (2, 0x00000001)] [] = some (wrote 3 0x00000000 0x14) ∧
    outcomeAt16 0x0020B1B3 [(1, 0x00000001), (2, 0xFFFFFFFF)] [] = some (wrote 3 0x00000001 0x14) := by
  decide

/-- V-R11, V-R12. -/
theorem test_xor :
    outcomeAt16 0x0020C1B3 [(1, 0x12345678), (2, 0x0000FF00)] [] = some (wrote 3 0x1234A978 0x14) ∧
    outcomeAt16 0x0020C1B3 [(1, 0xF0F0F0F0), (2, 0x00000004)] [] = some (wrote 3 0xF0F0F0F4 0x14) := by
  decide

/-- V-R8, V-R10. -/
theorem test_srl :
    outcomeAt16 0x0020D1B3 [(1, 0x80000001), (2, 0x0000001F)] [] = some (wrote 3 0x00000001 0x14) ∧
    outcomeAt16 0x0020D1B3 [(1, 0x80000001), (2, 0xFFFFFFE4)] [] = some (wrote 3 0x08000000 0x14) := by
  decide

/-- V-R4, V-R10. -/
theorem test_sra :
    outcomeAt16 0x4020D1B3 [(1, 0x80000000), (2, 0x00000001)] [] = some (wrote 3 0xC0000000 0x14) ∧
    outcomeAt16 0x4020D1B3 [(1, 0x80000001), (2, 0xFFFFFFE4)] [] = some (wrote 3 0xF8000000 0x14) := by
  decide

/-- V-R11, V-R12. -/
theorem test_or :
    outcomeAt16 0x0020E1B3 [(1, 0x12345678), (2, 0x0000FF00)] [] = some (wrote 3 0x1234FF78 0x14) ∧
    outcomeAt16 0x0020E1B3 [(1, 0xF0F0F0F0), (2, 0x00000004)] [] = some (wrote 3 0xF0F0F0F4 0x14) := by
  decide

/-- V-R10, V-R11. -/
theorem test_and :
    outcomeAt16 0x0020F1B3 [(1, 0x80000001), (2, 0xFFFFFFE4)] [] = some (wrote 3 0x80000000 0x14) ∧
    outcomeAt16 0x0020F1B3 [(1, 0x12345678), (2, 0x0000FF00)] [] = some (wrote 3 0x00005600 0x14) := by
  decide

/-- V-M5, V-M11. -/
theorem test_mul :
    outcomeAt16 0x022081B3 [(1, 0xFFFFFFF9), (2, 0x00000002)] [] = some (wrote 3 0xFFFFFFF2 0x14) ∧
    outcomeAt16 0x022081B3 [(1, 0x12345678), (2, 0x9ABCDEF0)] [] = some (wrote 3 0x242D2080 0x14) := by
  decide

/-- V-M2, V-M5. -/
theorem test_mulh :
    outcomeAt16 0x022091B3 [(1, 0x80000000), (2, 0x80000000)] [] = some (wrote 3 0x40000000 0x14) ∧
    outcomeAt16 0x022091B3 [(1, 0xFFFFFFF9), (2, 0x00000002)] [] = some (wrote 3 0xFFFFFFFF 0x14) := by
  decide

/-- V-M6, V-M7. -/
theorem test_mulhsu :
    outcomeAt16 0x0220A1B3 [(1, 0x00000007), (2, 0xFFFFFFFE)] [] = some (wrote 3 0x00000006 0x14) ∧
    outcomeAt16 0x0220A1B3 [(1, 0xFFFFFFF9), (2, 0xFFFFFFFE)] [] = some (wrote 3 0xFFFFFFF9 0x14) := by
  decide

/-- V-M1, V-M11. -/
theorem test_mulhu :
    outcomeAt16 0x0220B1B3 [(1, 0xFFFFFFFF), (2, 0xFFFFFFFF)] [] = some (wrote 3 0xFFFFFFFE 0x14) ∧
    outcomeAt16 0x0220B1B3 [(1, 0x12345678), (2, 0x9ABCDEF0)] [] = some (wrote 3 0x0B00EA4E 0x14) := by
  decide

/-- V-M5, V-M9. -/
theorem test_div :
    outcomeAt16 0x0220C1B3 [(1, 0xFFFFFFF9), (2, 0x00000002)] [] = some (wrote 3 0xFFFFFFFD 0x14) ∧
    outcomeAt16 0x0220C1B3 [(1, 0x00000005), (2, 0x00000000)] [] = some (failed .divisionByZero 4) := by
  decide

/-- V-M5, V-M9. -/
theorem test_divu :
    outcomeAt16 0x0220D1B3 [(1, 0xFFFFFFF9), (2, 0x00000002)] [] = some (wrote 3 0x7FFFFFFC 0x14) ∧
    outcomeAt16 0x0220D1B3 [(1, 0x00000005), (2, 0x00000000)] [] = some (failed .divisionByZero 4) := by
  decide

/-- V-M6, V-M9. -/
theorem test_rem :
    outcomeAt16 0x0220E1B3 [(1, 0x00000007), (2, 0xFFFFFFFE)] [] = some (wrote 3 0x00000001 0x14) ∧
    outcomeAt16 0x0220E1B3 [(1, 0x00000005), (2, 0x00000000)] [] = some (failed .divisionByZero 4) := by
  decide

/-- V-M7, V-M9. -/
theorem test_remu :
    outcomeAt16 0x0220F1B3 [(1, 0xFFFFFFF9), (2, 0xFFFFFFFE)] [] = some (wrote 3 0xFFFFFFF9 0x14) ∧
    outcomeAt16 0x0220F1B3 [(1, 0x00000005), (2, 0x00000000)] [] = some (failed .divisionByZero 4) := by
  decide

/-- V-M3, V-M14, V-M15: the overflow pair with either value of DIV_OVERFLOW. -/
theorem test_division_overflow :
    outcomeAt16 0x0220C1B3 [(1, 0x80000000), (2, 0xFFFFFFFF)] [] = some (wrote 3 0x80000000 0x14) ∧
    outcomeAt16 0x0220E1B3 [(1, 0x80000000), (2, 0xFFFFFFFF)] [] = some (wrote 3 0x00000000 0x14) ∧
    stopsAt16 ⟨.splitLe, .fault⟩ 0x0220C1B3 [(1, 0x80000000), (2, 0xFFFFFFFF)] = some (.divOverflowUnmodelled 4) ∧
    stopsAt16 ⟨.splitLe, .fault⟩ 0x0220E1B3 [(1, 0x80000000), (2, 0xFFFFFFFF)] = some (.divOverflowUnmodelled 4) := by
  decide

/-- V-I2, V-I3. -/
theorem test_addi :
    outcomeAt16 0x7FF08193 [(1, 0x7FFFFFFF)] [] = some (wrote 3 0x800007FE 0x00000014) ∧
    outcomeAt16 0x80008193 [(1, 0x80000000)] [] = some (wrote 3 0x7FFFF800 0x00000014) := by
  decide

/-- V-I4, V-I5. -/
theorem test_slti :
    outcomeAt16 0x0050A193 [(1, 0xFFFFFFFF)] [] = some (wrote 3 0x00000001 0x00000014) ∧
    outcomeAt16 0x8000A193 [(1, 0x80000000)] [] = some (wrote 3 0x00000001 0x00000014) := by
  decide

/-- V-I7, V-I8. -/
theorem test_sltiu :
    outcomeAt16 0xFFF0B193 [(1, 0x00000005)] [] = some (wrote 3 0x00000001 0x00000014) ∧
    outcomeAt16 0xFFF0B193 [(1, 0xFFFFFFFF)] [] = some (wrote 3 0x00000000 0x00000014) := by
  decide

/-- V-I11. -/
theorem test_xori :
    outcomeAt16 0xFFF0C193 [(1, 0x0000FFFF)] [] = some (wrote 3 0xFFFF0000 0x00000014) := by
  decide

/-- V-I12, V-I13. -/
theorem test_ori :
    outcomeAt16 0x00F0E193 [(1, 0x000000F0)] [] = some (wrote 3 0x000000FF 0x00000014) ∧
    outcomeAt16 0x8000E193 [(1, 0x00000000)] [] = some (wrote 3 0xFFFFF800 0x00000014) := by
  decide

/-- V-I14, V-I15. -/
theorem test_andi :
    outcomeAt16 0x0FF0F193 [(1, 0x12345678)] [] = some (wrote 3 0x00000078 0x00000014) ∧
    outcomeAt16 0xFF00F193 [(1, 0x12345678)] [] = some (wrote 3 0x12345670 0x00000014) := by
  decide

/-- V-I16, V-I17. -/
theorem test_slli :
    outcomeAt16 0x00409193 [(1, 0x0F00000F)] [] = some (wrote 3 0xF00000F0 0x00000014) ∧
    outcomeAt16 0x01F09193 [(1, 0x00000003)] [] = some (wrote 3 0x80000000 0x00000014) := by
  decide

/-- V-I19, V-I20. -/
theorem test_srli :
    outcomeAt16 0x0040D193 [(1, 0x80000000)] [] = some (wrote 3 0x08000000 0x00000014) ∧
    outcomeAt16 0x01F0D193 [(1, 0x80000000)] [] = some (wrote 3 0x00000001 0x00000014) := by
  decide

/-- V-I21, V-I23. -/
theorem test_srai :
    outcomeAt16 0x4040D193 [(1, 0x80000000)] [] = some (wrote 3 0xF8000000 0x00000014) ∧
    outcomeAt16 0x41F0D193 [(1, 0x7FFFFFFF)] [] = some (wrote 3 0x00000000 0x00000014) := by
  decide

/-- V-L1, V-L15. -/
theorem test_lb :
    outcomeAt16 0x00008183 [(1, 0x00000100)] loadMemory = some (wrote 3 0xFFFFFF80 0x00000014) ∧
    outcomeAt16 0x00008183 [(1, 0x00001FFF)] loadMemory = some (wrote 3 0xFFFFFFDD 0x00000014) := by
  decide

/-- V-L2, V-L11. -/
theorem test_lh :
    outcomeAt16 0x00009183 [(1, 0x00000100)] loadMemory = some (wrote 3 0xFFFFFF80 0x00000014) ∧
    outcomeAt16 0x00109183 [(1, 0x00000100)] loadMemory = some (wrote 3 0x000034FF 0x00000014) := by
  decide

/-- V-L3, V-L20. -/
theorem test_lw :
    outcomeAt16 0x0000A183 [(1, 0x00000100)] loadMemory = some (wrote 3 0x1234FF80 0x00000014) ∧
    outcomeAt16 0x7FF0A183 [(1, 0xFFFFF900)] loadMemory = some (wrote 3 0x34FF8000 0x00000014) := by
  decide

/-- V-L4, V-L16. -/
theorem test_lbu :
    outcomeAt16 0x0000C183 [(1, 0x00000100)] loadMemory = some (wrote 3 0x00000080 0x00000014) ∧
    outcomeAt16 0x0000C183 [(1, 0x00002000)] loadMemory = some (failed .invalidMemoryAccess 4) := by
  decide

/-- V-L5, V-L13. -/
theorem test_lhu :
    outcomeAt16 0x0000D183 [(1, 0x00000100)] loadMemory = some (wrote 3 0x0000FF80 0x00000014) ∧
    outcomeAt16 0x0030D183 [(1, 0x00000100)] loadMemory = some (wrote 3 0x00000012 0x00000014) := by
  decide

/-- V-L12: a misaligned word with either value of MISALIGNED_DATA. -/
theorem test_misaligned_load :
    outcomeAt16 0x0010A183 [(1, 0x00000100)] loadMemory = some (wrote 3 0x001234FF 0x00000014) ∧
    outcomeWith ⟨.fault, .riscv⟩ 0x0010A183 [(1, 0x00000100)] loadMemory = some (failed .invalidMemoryAccess 4) := by
  decide

/-- V-S1, V-S10: the outcome and the four bytes at the address (for a failed store, the last four). -/
theorem test_sb :
    outcomeAt16 0x00208023 [(1, 0x00000100), (2, 0x12345678)] loadMemory = some (stored 0x00000100 0x00000078 0x00000014) ∧
    bytesAt16 0x00208023 [(1, 0x00000100), (2, 0x12345678)] loadMemory 0x00000100 = [0x78, 0xFF, 0x34, 0x12] ∧
    outcomeAt16 0x00008023 [(1, 0x00002000), (2, 0x00000001)] loadMemory = some (failed .invalidMemoryAccess 4) ∧
    bytesAt16 0x00008023 [(1, 0x00002000), (2, 0x00000001)] loadMemory 0x1FFC = [0xAA, 0xBB, 0xCC, 0xDD] := by
  decide

/-- V-S2, V-S7: the outcome and the four bytes at the address (for a failed store, the last four). -/
theorem test_sh :
    outcomeAt16 0x00209023 [(1, 0x00000100), (2, 0x12345678)] loadMemory = some (stored 0x00000100 0x00005678 0x00000014) ∧
    bytesAt16 0x00209023 [(1, 0x00000100), (2, 0x12345678)] loadMemory 0x00000100 = [0x78, 0x56, 0x34, 0x12] ∧
    outcomeAt16 0x002091A3 [(1, 0x00000100), (2, 0x0000BEEF)] loadMemory = some (stored 0x00000103 0x0000BEEF 0x00000014) ∧
    bytesAt16 0x002091A3 [(1, 0x00000100), (2, 0x0000BEEF)] loadMemory 0x00000103 = [0xEF, 0xBE, 0x00, 0x00] := by
  decide

/-- V-S6, V-S9: the outcome and the four bytes at the address (for a failed store, the last four). -/
theorem test_sw :
    outcomeAt16 0x0020A0A3 [(1, 0x00000100), (2, 0xCAFEBABE)] loadMemory = some (stored 0x00000101 0xCAFEBABE 0x00000014) ∧
    bytesAt16 0x0020A0A3 [(1, 0x00000100), (2, 0xCAFEBABE)] loadMemory 0x00000101 = [0xBE, 0xBA, 0xFE, 0xCA] ∧
    outcomeAt16 0xFE20AEA3 [(1, 0x00002000), (2, 0x01020304)] loadMemory = some (failed .invalidMemoryAccess 4) ∧
    bytesAt16 0xFE20AEA3 [(1, 0x00002000), (2, 0x01020304)] loadMemory 0x1FFC = [0xAA, 0xBB, 0xCC, 0xDD] := by
  decide

/-- The taken and not-taken table of section 2.6, rows 1 and 2. -/
theorem test_beq :
    outcomeAt16 0x00208463 [(1, 0x00000005), (2, 0x00000005)] [] = some (moved 0x18) ∧
    outcomeAt16 0x00208463 [(1, 0x00000005), (2, 0x00000006)] [] = some (moved 0x14) := by
  decide

/-- The taken and not-taken table of section 2.6, rows 1 and 2. -/
theorem test_bne :
    outcomeAt16 0x00209463 [(1, 0x00000005), (2, 0x00000005)] [] = some (moved 0x14) ∧
    outcomeAt16 0x00209463 [(1, 0x00000005), (2, 0x00000006)] [] = some (moved 0x18) := by
  decide

/-- The taken and not-taken table of section 2.6, rows 3 and 4. -/
theorem test_blt :
    outcomeAt16 0x0020C463 [(1, 0xFFFFFFFF), (2, 0x00000001)] [] = some (moved 0x18) ∧
    outcomeAt16 0x0020C463 [(1, 0x00000001), (2, 0xFFFFFFFF)] [] = some (moved 0x14) := by
  decide

/-- The taken and not-taken table of section 2.6, rows 3 and 4. -/
theorem test_bge :
    outcomeAt16 0x0020D463 [(1, 0xFFFFFFFF), (2, 0x00000001)] [] = some (moved 0x14) ∧
    outcomeAt16 0x0020D463 [(1, 0x00000001), (2, 0xFFFFFFFF)] [] = some (moved 0x18) := by
  decide

/-- The taken and not-taken table of section 2.6, rows 3 and 4. -/
theorem test_bltu :
    outcomeAt16 0x0020E463 [(1, 0xFFFFFFFF), (2, 0x00000001)] [] = some (moved 0x14) ∧
    outcomeAt16 0x0020E463 [(1, 0x00000001), (2, 0xFFFFFFFF)] [] = some (moved 0x18) := by
  decide

/-- The taken and not-taken table of section 2.6, rows 3 and 4. -/
theorem test_bgeu :
    outcomeAt16 0x0020F463 [(1, 0xFFFFFFFF), (2, 0x00000001)] [] = some (moved 0x18) ∧
    outcomeAt16 0x0020F463 [(1, 0x00000001), (2, 0xFFFFFFFF)] [] = some (moved 0x14) := by
  decide

/-- V-J1, V-J3. -/
theorem test_branch_backward_and_wrap :
    outcomeAt16 0xFE208CE3 [(1, 0x00000001), (2, 0x00000001)] [] = some (moved 0x00000008) ∧
    outcomeAt16 0xFE2086E3 [(1, 0x00000001), (2, 0x00000001)] [] = some (moved 0xFFFFFFFC) := by
  decide

/-- V-J4, V-J5. -/
theorem test_branch_misaligned :
    outcomeAt16 0x00209363 [(1, 0x00000001), (2, 0x00000001)] [] = some (failed .offsetNot32BitAligned 4) ∧
    outcomeAt16 0x00209363 [(1, 0x00000001), (2, 0x00000002)] [] = some (failed .offsetNot32BitAligned 4) := by
  decide

/-- V-J9, V-J12. -/
theorem test_jal :
    outcomeAt16 0x008000EF [] [] = some (wrote 1 0x00000014 0x00000018) ∧
    outcomeAt16 0x8000006F [] [] = some (wrote 0 0x00000000 0xFFF00010) := by
  decide

/-- V-J11. -/
theorem test_jal_misaligned :
    outcomeAt16 0x006000EF [] [] = some (failed .offsetNot32BitAligned 4) := by
  decide

/-- V-J14, V-J17. -/
theorem test_jalr :
    outcomeAt16 0x004080E7 [(1, 0x00000020)] [] = some (wrote 1 0x00000014 0x00000024) ∧
    outcomeAt16 0xFFF100E7 [(2, 0x00000041)] [] = some (wrote 1 0x00000014 0x00000040) := by
  decide

/-- V-J15, V-J16. -/
theorem test_jalr_misaligned :
    outcomeAt16 0x00008067 [(1, 0x00000041)] [] = some (failed .offsetNot32BitAligned 4) ∧
    outcomeAt16 0x000100E7 [(2, 0x00000042)] [] = some (failed .offsetNot32BitAligned 4) := by
  decide

/-- V-U1, V-U2. -/
theorem test_lui :
    outcomeAt16 0x123451B7 [] [] = some (wrote 3 0x12345000 0x00000014) ∧
    outcomeAt16 0xFFFFF1B7 [] [] = some (wrote 3 0xFFFFF000 0x00000014) := by
  decide

/-- V-U5, V-U7. -/
theorem test_auipc :
    outcomeAt16 0x00001197 [] [] = some (wrote 3 0x00001010 0x00000014) ∧
    outcomeAt16 0xFFFFF197 [] [] = some (wrote 3 0xFFFFF010 0x00000014) := by
  decide

/-- V-D1, V-D2, V-D3, V-D5: words that are no instruction. -/
theorem test_unsupported :
    outcomeAt16 0x00000000 [] [] = some (failed .unsupportedOpcode 4) ∧
    outcomeAt16 0xFFFFFFFF [] [] = some (failed .unsupportedOpcode 4) ∧
    outcomeAt16 0x00000073 [] [] = some (failed .unsupportedOpcode 4) ∧
    outcomeAt16 0x0000000F [] [] = some (failed .unsupportedOpcode 4) := by
  decide

/-! ## Table words, fetch, reset and the host commands -/

/-- The decoder refuses by name what the map does not list (V-D10, V-D12, V-D16 to V-D18). -/
theorem test_decode_unsupported :
    decode 0x100022AF = .unsupported ∧ decode 0x00006003 = .unsupported ∧ decode 0x00001067 = .unsupported ∧
    decode 0x04208133 = .unsupported ∧ decode 0x40209133 = .unsupported := by
  decide

theorem test_decodeTableWord : decodeTableWord 32 0x002081B3 = some (.add 3 1 2) ∧ decodeTableWord 32 0x73 = none := by
  decide

/-- The word placed for the next fetch is what the very next step after reset runs. -/
theorem test_withFetchWord :
    (after (State.reset.withFetchWord 32 0x00500093)).lastOutcome = some (wrote 1 5 4) := by
  decide

/-- V-E3: an empty program. -/
theorem test_reset_ends : (after State.reset).lastOutcome = some (failed .pcOutOfBounds 0) := by
  decide

/-- V-E1, step 3 and the step after it: the error reset keeps memory and restarts the program. -/
theorem test_error_reset :
    let s := testState Params.hardware [0x00500093, 0x00102023, 0x00000000, 0x00100113] 8 [(1, 5)] [(0, 5)]
    (after s).lastOutcome = some (failed .unsupportedOpcode 2) ∧ readReg (after s) 1 = 0 ∧
    Memory.readByte (after s).mem 0 = 5 ∧ (after (after s)).lastOutcome = some (wrote 1 5 4) := by
  decide

/-- V-E2: the end of the program, twice. -/
theorem test_program_end :
    let s := testState Params.hardware [0x00100093] 4 [(1, 1)] []
    (after s).lastOutcome = some ⟨false, .pcOutOfBounds, none, none, 4, some 1⟩ ∧ after (after s) = after s ∧
    readReg (after s) 1 = 1 := by
  decide

/-- R280: `Reset()`. -/
theorem test_resetEngine :
    resetEngine (testState Params.hardware [0x13] 4 [(7, 9)] [(3, 1)]) = { State.reset with program := [0x13] } := by
  decide

/-- R52: shrinking drops the cells beyond, growing shows zeros. -/
theorem test_resizeMemory :
    let s := resizeMemory 2 (resizeMemory 1 (testState Params.hardware [] 0 [] [(3, 1), (4, 2)]))
    Memory.readByte s.mem 3 = 1 ∧ Memory.readByte s.mem 4 = 0 ∧ s.memWords = 2 := by
  decide

/-! ## The assembler (spec/95_test_vectors.md section 2.9) -/

def assembled (lines : List String) : Assembled := assemble (lines.map String.toList)

/-- V-A1, V-A4, V-A13. -/
theorem test_assemble_lines :
    assembled ["ADD X5, X8, X31", "sw x2, -4(x1)  ; comment", "beq x0, x0, 7"] =
      .outcome ⟨true, [0x01F402B3, 0xFE20AE23, 0x00000363], [1, 2, 3], none, none, []⟩ := by
  decide

/-- T9: labels before and after their use. -/
theorem test_assemble_labels :
    assembled ["start:", "addi x1, x0, 2", "back:", "addi x1, x1, -1", "bne x1, x0, back", "beq x0, x0, fwd",
        "addi x2, x0, 1", "fwd:", "addi x3, x0, 3"] =
      .outcome ⟨true, [0x00200093, 0xFFF08093, 0xFE009EE3, 0x00000463, 0x00100113, 0x00300193], [2, 4, 5, 6, 7, 9], none,
        none, []⟩ := by
  decide

/-- V-A9, V-A21, V-A28. -/
theorem test_assemble_errors :
    assembled ["slli x1, x1, 32"] = .outcome (failedOutcome .immediateOutOfBounds (some 1) "32".toList) ∧
    assembled ["add x1, x2, x32"] = .outcome (failedOutcome .registerOutOfBounds (some 1) "x32".toList) ∧
    assembled ["a:", "a:", "addi x0, x0, 0"] = .outcome (failedOutcome .duplicateLabelDefinition (some 2) "a:".toList) := by
  decide

/-- R98, R104: a label line with white space of every kind around it, and a sign before a `0x` or `0b` literal. -/
theorem test_assemble_blanks_and_signs :
    assemble [['\x0b', 'a', ':', '\x0c'], "jal x0, a".toList] = .outcome ⟨true, [0x0000006F], [2], none, none, []⟩ ∧
    assembled ["addi x1, x0, +0x10"] = .refused 1 "+0x10".toList ∧
    assembled ["addi x1, x0, -0b1"] = .refused 1 "-0b1".toList := by
  decide

/-! ## Witnesses: for every statement that has hypotheses, values that meet them -/

/-- x1 and x2. -/
def divState (params : Params) (a b : Word) : State := testState params [] 0 [(1, a), (2, b)] []

/-- `div x3, x1, x2` at pc 0x10. -/
def divRun (a b : Word) : State := at16 Params.hardware 0x0220C1B3 [(1, a), (2, b)] []

/-- A base address in x1. -/
def addressed (params : Params) (a : Word) : State := testState params [] 0 [(1, a)] []

/-- `addi x1, x0, 5` at pc 0. -/
def addiRun : State := testState Params.hardware [0x00500093] 0 [] []

/-- `sb x2, 0(x1)` to the last byte. -/
def storeRun : State := at16 Params.hardware 0x00208023 [(1, 0x1FFF), (2, 0x78)] loadMemory

/-- A state in the middle of a run. -/
def invState : State := testState Params.hardware [0x00500093, 0x00102023] 4 [(1, 5)] [(3, 1), (0x1FFF, 2)]

/-- Words that have the patterns, rd being x3. -/
theorem witness_AddAndSubWrap :
    (0x01F081B3 : Word) &&& 0xFE00707F = 0x00000033 ∧
    (0x41F081B3 : Word) &&& 0xFE00707F = 0x40000033 := by
  decide

/-- Words that have the patterns, rd being x3. -/
theorem witness_RegisterShiftsUseFiveBits :
    (0x01F091B3 : Word) &&& 0xFE00707F = 0x00001033 ∧
    (0x01F0D1B3 : Word) &&& 0xFE00707F = 0x00005033 ∧
    (0x41F0D1B3 : Word) &&& 0xFE00707F = 0x40005033 := by
  decide

/-- Words that have the patterns, rd being x3. -/
theorem witness_SetLessThanSignedAndUnsigned :
    (0x01F0A1B3 : Word) &&& 0xFE00707F = 0x00002033 ∧
    (0x01F0B1B3 : Word) &&& 0xFE00707F = 0x00003033 := by
  decide

/-- Words that have the patterns, rd being x3. -/
theorem witness_RegisterLogicIsBitwise :
    (0x01F0C1B3 : Word) &&& 0xFE00707F = 0x00004033 ∧
    (0x01F0E1B3 : Word) &&& 0xFE00707F = 0x00006033 ∧
    (0x01F0F1B3 : Word) &&& 0xFE00707F = 0x00007033 := by
  decide

/-- Words that have the patterns, rd being x3. -/
theorem witness_ProductsAreExact :
    (0x03F081B3 : Word) &&& 0xFE00707F = 0x02000033 ∧
    (0x03F091B3 : Word) &&& 0xFE00707F = 0x02001033 ∧
    (0x03F0A1B3 : Word) &&& 0xFE00707F = 0x02002033 ∧
    (0x03F0B1B3 : Word) &&& 0xFE00707F = 0x02003033 := by
  decide

/-- Words that have the patterns, and operands of every sign that meet the conditions, two next to the overflow
pair among them. -/
theorem witness_SignedDivisionRoundsTowardZero :
    (0x03F0C1B3 : Word) &&& 0xFE00707F = 0x02004033 ∧
    (0x03F0E1B3 : Word) &&& 0xFE00707F = 0x02006033 ∧
    (∀ r ∈ [((0xFFFFFFF9 : Word), (2 : Word)), (7, 0xFFFFFFFE), (0x80000001, 0xFFFFFFFF), (0x80000000, 1)],
      readReg (divState Params.hardware r.1 r.2) 2 ≠ 0 ∧
        ¬ (readReg (divState Params.hardware r.1 r.2) 1 = 0x80000000 ∧
          readReg (divState Params.hardware r.1 r.2) 2 = 0xFFFFFFFF)) := by
  refine ⟨by decide, by decide, ?_⟩
  simp only [List.forall_mem_cons]
  exact ⟨by decide, by decide, by decide, by decide, by simp⟩

/-- Words that have the patterns, and operands of every sign that meet the conditions, two next to the overflow
pair among them. -/
theorem witness_UnsignedDivision :
    (0x03F0D1B3 : Word) &&& 0xFE00707F = 0x02005033 ∧
    (0x03F0F1B3 : Word) &&& 0xFE00707F = 0x02007033 ∧
    readReg (divState Params.hardware 7 0xFFFFFFFF) 2 ≠ 0 := by
  decide

/-- The overflow pair with either value of the parameter. -/
theorem witness_SignedDivisionOverflow :
    OverflowPair (readReg (divState Params.hardware 0x80000000 0xFFFFFFFF) 1)
      (readReg (divState Params.hardware 0x80000000 0xFFFFFFFF) 2) ∧
    (divState Params.hardware 0x80000000 0xFFFFFFFF).params.divOverflow = .riscv ∧
    OverflowPair (readReg (divState ⟨.splitLe, .fault⟩ 0x80000000 0xFFFFFFFF) 1)
      (readReg (divState ⟨.splitLe, .fault⟩ 0x80000000 0xFFFFFFFF) 2) ∧
    (divState ⟨.splitLe, .fault⟩ 0x80000000 0xFFFFFFFF).params.divOverflow = .fault := by
  unfold OverflowPair
  decide

/-- A register that holds 0, and x0, as divisors. -/
theorem witness_DivisionByZeroResets :
    readReg (divState Params.hardware 5 0) 2 = 0 ∧ readReg (divState Params.hardware 5 1) 0 = 0 := by
  decide

/-- A divisor that is not 0 with operands that are not the overflow pair, and the overflow pair for the unsigned clause. -/
theorem witness_QuotientAndRemainderRebuildDividend :
    readReg (divState Params.hardware 0xFFFFFFF9 2) 2 ≠ 0 ∧
    ¬ OverflowPair (readReg (divState Params.hardware 0xFFFFFFF9 2) 1) (readReg (divState Params.hardware 0xFFFFFFF9 2) 2) ∧
    readReg (divState Params.hardware 0x80000000 0xFFFFFFFF) 2 ≠ 0 := by
  unfold OverflowPair
  decide

/-- Words that have the patterns, rd being x0. -/
theorem witness_AddImmediateWraps :
    (0xFFF08013 : Word) &&& 0x0000707F = 0x00000013 := by
  decide

/-- Words that have the patterns, rd being x0. -/
theorem witness_SetLessThanImmediate :
    (0xFFF0A013 : Word) &&& 0x0000707F = 0x00002013 ∧
    (0xFFF0B013 : Word) &&& 0x0000707F = 0x00003013 := by
  decide

/-- Words that have the patterns, rd being x0. -/
theorem witness_ImmediateLogicIsBitwise :
    (0xFFF0C013 : Word) &&& 0x0000707F = 0x00004013 ∧
    (0xFFF0E013 : Word) &&& 0x0000707F = 0x00006013 ∧
    (0xFFF0F013 : Word) &&& 0x0000707F = 0x00007013 := by
  decide

/-- Words that have the patterns, shamt being 31. -/
theorem witness_ImmediateShifts :
    (0x01F09193 : Word) &&& 0xFE00707F = 0x00001013 ∧
    (0x01F0D193 : Word) &&& 0xFE00707F = 0x00005013 ∧
    (0x41F0D193 : Word) &&& 0xFE00707F = 0x40005013 := by
  decide

/-- Words that have the patterns. -/
theorem witness_UpperImmediates :
    (0x800001B7 : Word) &&& 0x0000007F = 0x00000037 ∧
    (0xFFFFF197 : Word) &&& 0x0000007F = 0x00000017 := by
  decide

/-- Words that have the patterns; for each width the last address that fits and the first that does not; misaligned addresses with either
parameter. -/
theorem witness_LoadsReadLittleEndian :
    (0xFFF08003 : Word) &&& 0x0000707F = 0x00000003 ∧
    (0xFFF09003 : Word) &&& 0x0000707F = 0x00001003 ∧
    (0xFFF0A003 : Word) &&& 0x0000707F = 0x00002003 ∧
    (0xFFF0C003 : Word) &&& 0x0000707F = 0x00004003 ∧
    (0xFFF0D003 : Word) &&& 0x0000707F = 0x00005003 ∧
    AccessFits (addressed Params.hardware 0x1FFF) (effectiveAddress (addressed Params.hardware 0x1FFF) 1 0) 1 ∧
    ¬ AccessFits (addressed Params.hardware 0x2000) (effectiveAddress (addressed Params.hardware 0x2000) 1 0) 1 ∧
    AccessFits (addressed Params.hardware 0x1FFE) (effectiveAddress (addressed Params.hardware 0x1FFE) 1 0) 2 ∧
    ¬ AccessFits (addressed Params.hardware 0x1FFF) (effectiveAddress (addressed Params.hardware 0x1FFF) 1 0) 2 ∧
    AccessFits (addressed Params.hardware 0x1FFC) (effectiveAddress (addressed Params.hardware 0x1FFC) 1 0) 4 ∧
    ¬ AccessFits (addressed Params.hardware 0x1FFD) (effectiveAddress (addressed Params.hardware 0x1FFD) 1 0) 4 ∧
    AccessFits (addressed Params.hardware 0x101) (effectiveAddress (addressed Params.hardware 0x101) 1 0) 4 ∧
    AccessFits (addressed ⟨.fault, .riscv⟩ 0x100) (effectiveAddress (addressed ⟨.fault, .riscv⟩ 0x100) 1 0) 4 ∧
    ¬ AccessFits (addressed ⟨.fault, .riscv⟩ 0x101) (effectiveAddress (addressed ⟨.fault, .riscv⟩ 0x101) 1 0) 2 ∧
    ¬ AccessFits (addressed ⟨.fault, .riscv⟩ 0x102) (effectiveAddress (addressed ⟨.fault, .riscv⟩ 0x102) 1 0) 4 := by
  unfold AccessFits
  decide

/-- As for the loads. -/
theorem witness_StoresWriteTheirBytesOnly :
    (0xFFF08023 : Word) &&& 0x0000707F = 0x00000023 ∧
    (0xFFF09023 : Word) &&& 0x0000707F = 0x00001023 ∧
    (0xFFF0A023 : Word) &&& 0x0000707F = 0x00002023 ∧
    AccessFits (addressed Params.hardware 0x1FFF) (effectiveAddress (addressed Params.hardware 0x1FFF) 1 0) 1 ∧
    ¬ AccessFits (addressed Params.hardware 0x2000) (effectiveAddress (addressed Params.hardware 0x2000) 1 0) 1 ∧
    AccessFits (addressed Params.hardware 0x1FFE) (effectiveAddress (addressed Params.hardware 0x1FFE) 1 0) 2 ∧
    ¬ AccessFits (addressed Params.hardware 0x1FFF) (effectiveAddress (addressed Params.hardware 0x1FFF) 1 0) 2 ∧
    AccessFits (addressed Params.hardware 0x1FFC) (effectiveAddress (addressed Params.hardware 0x1FFC) 1 0) 4 ∧
    ¬ AccessFits (addressed Params.hardware 0x1FFD) (effectiveAddress (addressed Params.hardware 0x1FFD) 1 0) 4 ∧
    AccessFits (addressed Params.hardware 0x101) (effectiveAddress (addressed Params.hardware 0x101) 1 0) 4 ∧
    AccessFits (addressed ⟨.fault, .riscv⟩ 0x100) (effectiveAddress (addressed ⟨.fault, .riscv⟩ 0x100) 1 0) 4 ∧
    ¬ AccessFits (addressed ⟨.fault, .riscv⟩ 0x101) (effectiveAddress (addressed ⟨.fault, .riscv⟩ 0x101) 1 0) 2 ∧
    ¬ AccessFits (addressed ⟨.fault, .riscv⟩ 0x102) (effectiveAddress (addressed ⟨.fault, .riscv⟩ 0x102) 1 0) 4 := by
  unfold AccessFits
  decide

/-- Accesses that fit, one of each width, at the end of the memory and misaligned. -/
theorem witness_LoadReturnsWhatWasStored :
    AccessFits (addressed Params.hardware 0x1FFF) (effectiveAddress (addressed Params.hardware 0x1FFF) 1 0) 1 ∧
    AccessFits (addressed Params.hardware 0x1FFE) (effectiveAddress (addressed Params.hardware 0x1FFE) 1 0) 2 ∧
    AccessFits (addressed Params.hardware 0x1FFC) (effectiveAddress (addressed Params.hardware 0x1FFC) 1 0) 4 ∧
    AccessFits (addressed Params.hardware 0x101) (effectiveAddress (addressed Params.hardware 0x101) 1 0) 4 := by
  unfold AccessFits
  decide

/-- Words that have the patterns; displacements that are and are not multiples of 4, at both ends of the range; operands that take and do
not take each branch, compared as signed and as unsigned. -/
theorem witness_BranchesGoWhereTheirConditionSays :
    (0xFFF08063 : Word) &&& 0x0000707F = 0x00000063 ∧
    (0xFFF09063 : Word) &&& 0x0000707F = 0x00001063 ∧
    (0xFFF0C063 : Word) &&& 0x0000707F = 0x00004063 ∧
    (0xFFF0D063 : Word) &&& 0x0000707F = 0x00005063 ∧
    (0xFFF0E063 : Word) &&& 0x0000707F = 0x00006063 ∧
    (0xFFF0F063 : Word) &&& 0x0000707F = 0x00007063 ∧
    (0x1000#13).toInt % 4 = 0 ∧ (0x0FFC#13).toInt % 4 = 0 ∧ (0x0FFE#13).toInt % 4 ≠ 0 ∧ (0x1002#13).toInt % 4 ≠ 0 ∧
    readReg (divState Params.hardware 5 5) 1 = readReg (divState Params.hardware 5 5) 2 ∧
    readReg (divState Params.hardware 5 6) 1 ≠ readReg (divState Params.hardware 5 6) 2 ∧
    (readReg (divState Params.hardware 0x80000000 0x7FFFFFFF) 1).toInt <
      (readReg (divState Params.hardware 0x80000000 0x7FFFFFFF) 2).toInt ∧
    ¬ (readReg (divState Params.hardware 0x80000000 0x7FFFFFFF) 1).toNat <
      (readReg (divState Params.hardware 0x80000000 0x7FFFFFFF) 2).toNat ∧
    ¬ (readReg (divState Params.hardware 0 0x80000000) 1).toInt < (readReg (divState Params.hardware 0 0x80000000) 2).toInt ∧
    (readReg (divState Params.hardware 0 0x80000000) 1).toNat < (readReg (divState Params.hardware 0 0x80000000) 2).toNat := by
  decide

/-- A word that has the pattern; displacements at both ends of the range that are and are not multiples of 4. -/
theorem witness_JumpAndLink :
    (0x8000006F : Word) &&& 0x0000007F = 0x0000006F ∧
    (0x100000#21).toInt % 4 = 0 ∧ (0x0FFFFC#21).toInt % 4 = 0 ∧ (0x0FFFFE#21).toInt % 4 ≠ 0 ∧ (0x100002#21).toInt % 4 ≠ 0 := by
  decide

/-- A word that has the pattern; a target that wraps to a multiple of 4, and targets with bit 0 or bit 1 set. -/
theorem witness_JumpAndLinkRegister :
    (0xFFF100E7 : Word) &&& 0x0000707F = 0x00000067 ∧
    Displaced (readReg (addressed Params.hardware 0xFFFFFFFF) 1) (5#12).toInt 4 ∧ (4#32).toNat % 4 = 0 ∧
    Displaced (readReg (addressed Params.hardware 0x40) 1) (1#12).toInt 0x41 ∧ (0x41#32).toNat % 4 ≠ 0 ∧
    Displaced (readReg (addressed Params.hardware 0x40) 1) (0x802#12).toInt 0xFFFFF842 ∧ (0xFFFFF842#32).toNat % 4 ≠ 0 := by
  unfold Displaced
  decide

/-- Well-formed instructions, one with a displacement at each end of its range. -/
theorem witness_DecodeEncodeAgree :
    (Instr.add 31 0 31).wellFormed = true ∧ (Instr.beq 1 2 0x1000).wellFormed = true ∧
    (Instr.jal 1 0x0FFFFE).wellFormed = true := by
  decide

/-- A word that decodes. -/
theorem witness_EncodeDecodeAgree :
    decode 0xFFFFF06F = .instr (.jal 0 0x1FFFFE) := by
  decide

/-- A word that decodes, and a row that covers a word. -/
theorem witness_DecoderAgreesWithOpcodeTable :
    decode 0x0220A1B3 = .instr (.mulhsu 3 1 2) ∧
    (⟨"MULHSU", 0x02002033, maskOpFunct⟩ : OpcodeRow) ∈ opcodeRows ∧
    (⟨"MULHSU", 0x02002033, maskOpFunct⟩ : OpcodeRow).covers 0x0220A1B3 = true := by
  decide

/-- A program whose last word the pc points to. -/
theorem witness_StepRunsTheDecodedInstruction :
    (testState Params.hardware [0x13, 0x00100093] 4 [] []).program[(testState Params.hardware [0x13, 0x00100093] 4 [] []).pc.toNat / 4]? =
      some 0x00100093 ∧
    decode 0x00100093 = .instr (.addi 1 0 1) := by
  decide

/-- The first index beyond the program and the last one in it. -/
theorem witness_FetchStopsAtProgramEnd :
    (testState Params.hardware [0x13, 0x13] 8 [] []).program.length ≤
        (testState Params.hardware [0x13, 0x13] 8 [] []).pc.toNat / 4 ∧
    (testState Params.hardware [0x13, 0x13] 4 [] []).pc.toNat / 4 <
        (testState Params.hardware [0x13, 0x13] 4 [] []).program.length := by
  decide

/-- The end of a program of one word, and its step. -/
theorem witness_ProgramEndIsIdempotent :
    (testState Params.hardware [0x13] 4 [] []).program.length ≤ (testState Params.hardware [0x13] 4 [] []).pc.toNat / 4 ∧
    step (testState Params.hardware [0x13] 4 [] []) = .next (after (testState Params.hardware [0x13] 4 [] [])) := ⟨by decide, rfl⟩

/-- A word that no instruction has. -/
theorem witness_UnsupportedWordsRaise :
    fetch (at16 Params.hardware 0x73 [] []) = some 0x73 ∧ decode 0x73 = .unsupported := by
  decide

/-- A word for each clause. -/
theorem witness_UnlistedWordsAreUnsupported :
    (0x00000073#32).extractLsb' 0 7 ∉ [0b0110011#7, 0b0010011, 0b0000011, 0b0100011, 0b1100011, 0b1101111, 0b1100111, 0b0110111,
      0b0010111] ∧
    ((0x04208133#32).extractLsb' 0 7 = 0b0110011#7 ∧ (0x04208133#32).extractLsb' 25 7 ∉ [0#7, 1#7, 32#7]) ∧
    ((0x40209133#32).extractLsb' 0 7 = 0b0110011#7 ∧ (0x40209133#32).extractLsb' 25 7 = 32#7 ∧
      (0x40209133#32).extractLsb' 12 3 ∉ [0#3, 5#3]) ∧
    ((0x40209113#32).extractLsb' 0 7 = 0b0010011#7 ∧ (0x40209113#32).extractLsb' 12 3 = 1#3 ∧
      (0x40209113#32).extractLsb' 25 7 ≠ 0#7) ∧
    ((0x02205113#32).extractLsb' 0 7 = 0b0010011#7 ∧ (0x02205113#32).extractLsb' 12 3 = 5#3 ∧
      (0x02205113#32).extractLsb' 25 7 ∉ [0#7, 32#7]) ∧
    ((0x00006003#32).extractLsb' 0 7 = 0b0000011#7 ∧ (0x00006003#32).extractLsb' 12 3 ∈ [3#3, 6#3, 7#3]) ∧
    ((0x00003023#32).extractLsb' 0 7 = 0b0100011#7 ∧ (0x00003023#32).extractLsb' 12 3 ∈ [3#3, 4#3, 5#3, 6#3, 7#3]) ∧
    ((0x00003063#32).extractLsb' 0 7 = 0b1100011#7 ∧ (0x00003063#32).extractLsb' 12 3 ∈ [2#3, 3#3]) ∧
    ((0x00001067#32).extractLsb' 0 7 = 0b1100111#7 ∧ (0x00001067#32).extractLsb' 12 3 ≠ 0#3) := by
  decide

/-- A division by 0. -/
theorem witness_EveryErrorIsTheErrorReset :
    step (divRun 5 0) = .next (after (divRun 5 0)) ∧
    (after (divRun 5 0)).lastOutcome = some (failed .divisionByZero 4) ∧
    (failed .divisionByZero 4).success = false ∧ (failed .divisionByZero 4).error ≠ .pcOutOfBounds := ⟨rfl, by decide, by decide, by decide⟩

/-- A division by 0. -/
theorem witness_ErrorRestartsTheProgram :
    step (divRun 5 0) = .next (after (divRun 5 0)) ∧
    (after (divRun 5 0)).lastOutcome = some (failed .divisionByZero 4) ∧
    (failed .divisionByZero 4).success = false ∧ (failed .divisionByZero 4).error ≠ .pcOutOfBounds := ⟨rfl, by decide, by decide, by decide⟩

/-- A step for each of the five errors. -/
theorem witness_ErrorsComeFromTheirInstructions :
    (∀ s ∈ [divRun 5 0, at16 Params.hardware 0x0000A183 [(1, 0x1FFD)] [], at16 Params.hardware 0x006000EF [] [],
        at16 Params.hardware 0x73 [] [], State.reset],
      step s = .next (after s)) ∧
    (after (divRun 5 0)).lastOutcome = some (failed .divisionByZero 4) ∧
    (after (at16 Params.hardware 0x0000A183 [(1, 0x1FFD)] [])).lastOutcome = some (failed .invalidMemoryAccess 4) ∧
    (after (at16 Params.hardware 0x006000EF [] [])).lastOutcome = some (failed .offsetNot32BitAligned 4) ∧
    (after (at16 Params.hardware 0x73 [] [])).lastOutcome = some (failed .unsupportedOpcode 4) ∧
    (after State.reset).lastOutcome = some (failed .pcOutOfBounds 0) := by
  refine ⟨?_, by decide, by decide, by decide, by decide, by decide⟩
  simp only [List.forall_mem_cons]
  exact ⟨rfl, rfl, rfl, rfl, rfl, by simp⟩

/-- A step with an outcome. -/
theorem witness_InvalidRegisterIsNeverRaised :
    step addiRun = .next (after addiRun) ∧ (after addiRun).lastOutcome = some (wrote 1 5 4) := ⟨rfl, by decide⟩

/-- A step to a next state. -/
theorem witness_EveryStepReportsAnOutcome :
    step addiRun = .next (after addiRun) := rfl

/-- A successful step. -/
theorem witness_SuccessReportsTheChange :
    step addiRun = .next (after addiRun) ∧ (after addiRun).lastOutcome = some (wrote 1 5 4) ∧ (wrote 1 5 4).success = true := ⟨rfl, by decide, rfl⟩

/-- The hardware's value of the parameter. -/
theorem witness_StepAlwaysAnswers :
    State.reset.params.divOverflow = .riscv := by
  decide

/-- A state with a listed byte, a register and a program that meets the invariant, and its step. -/
theorem witness_StepKeepsTheInvariant :
    invState.Inv ∧ step invState = .next (after invState) := ⟨⟨by decide, by decide, by decide, by decide, by decide⟩, rfl⟩

/-- A state that meets the invariant, a command that answers, and a launch that answers. -/
theorem witness_HostCommandsKeepTheInvariant :
    invState.Inv ∧ runCommand (.resize 1) invState = .next (resizeMemory 1 invState) ∧
    launch [0x13] invState = .next (resetEngine { invState with program := [0x13] }) := ⟨⟨by decide, by decide, by decide, by decide, by decide⟩, rfl, rfl⟩

/-- A program that LoadProgram takes, a pc that is four times an index, a step of a store. -/
theorem witness_NoStepWritesTheInstructionStream :
    loadProgram [0x13] State.reset = .next { State.reset with program := [0x13] } ∧
    (testState Params.hardware [0x13, 0x13] 4 [] []).pc.toNat = 4 * 1 ∧
    step storeRun = .next (after storeRun) := ⟨rfl, by decide, rfl⟩

/-- A store that changes a byte. -/
theorem witness_OnlyStoresChangeMemory :
    step storeRun = .next (after storeRun) ∧
    Memory.readByte (after storeRun).mem 0x1FFF ≠ Memory.readByte storeRun.mem 0x1FFF := ⟨rfl, by decide⟩

/-- A successful step that changes a register. -/
theorem witness_OneDestinationRegister :
    step addiRun = .next (after addiRun) ∧ runEnded (after addiRun) = false ∧
    readReg (after addiRun) 1 ≠ readReg addiRun 1 := ⟨rfl, by decide, by decide⟩

/-- Two different states that agree in all but the outcome. -/
theorem witness_StepIgnoresTheLastOutcome :
    AgreeButOutcome addiRun (addiRun.setOutcome (moved 8)) ∧ addiRun ≠ addiRun.setOutcome (moved 8) := ⟨⟨rfl, rfl, rfl, rfl, rfl, rfl⟩, by decide⟩

/-- A store is no load, and completes. -/
theorem witness_OnlyLoadsReadMemory :
    (∀ i, Runs storeRun i → i.isLoad = false) ∧ step storeRun = .next (after storeRun) := by
  refine ⟨fun i ⟨w, hf, hd⟩ => ?_, rfl⟩
  have hw : fetch storeRun = some 0x00208023 := by decide
  rw [hw] at hf
  cases hf
  have hi : decode 0x00208023 = .instr (.sb 1 2 0) := by decide
  rw [hi] at hd
  cases hd
  rfl

/-- A successful ADDI. -/
theorem witness_SequentialAdvance :
    Runs addiRun (.addi 1 0 5) ∧ (Instr.addi 1 0 5).isControlTransfer = false ∧ step addiRun = .next (after addiRun) ∧
    runEnded (after addiRun) = false := ⟨⟨0x00500093, by decide, by decide⟩, rfl, rfl, by decide⟩

/-- The longest program and one word more. -/
theorem witness_LoadProgramChangesOnlyTheProgram :
    ∃ p q : List Word, p.length ≤ 2 ^ 30 ∧ p.length = 2 ^ 30 ∧ 2 ^ 30 < q.length := by
  have h (n : Nat) : ∃ p : List Word, p.length = n := ⟨List.replicate n 0, List.length_replicate⟩
  obtain ⟨p, hp⟩ := h (2 ^ 30)
  obtain ⟨q, hq⟩ := h (2 ^ 30 + 1)
  exact ⟨p, q, by omega, hp, by omega⟩

/-- A state that meets the invariant, with sizes below and above its own, and addresses on either side of the smaller size. -/
theorem witness_ResizeKeepsContentAndZeroFills :
    invState.Inv ∧ 3 < 4 * min 1 invState.memWords ∧ 4 * min 1 invState.memWords ≤ 4 ∧
    0x1FFF < 4 * min 4096 invState.memWords ∧ 4 * min 4096 invState.memWords ≤ 0x2000 := ⟨⟨by decide, by decide, by decide, by decide, by decide⟩, by decide, by decide, by decide, by decide⟩

/-- A run of one word that ends at its second step. -/
theorem witness_RunStopsAtFirstFailure :
    runEnded addiRun = false ∧ runSteps 2 addiRun = .next (after (after addiRun)) ∧
    runEnded (after (after addiRun)) = true := ⟨by decide, rfl, by decide⟩

/-- A program that assembles. -/
theorem witness_AssembledWordsDecode :
    assembled ["addi x1, x0, 5"] = .outcome ⟨true, [0x00500093], [1], none, none, []⟩ ∧
    (⟨true, [0x00500093], [1], none, none, []⟩ : ParseOutcome).success = true := by
  decide

end Sys2Proof.Tests
end

section
/-! `GetStatus`: what each field of the status holds (R31). -/

namespace Sys2Proof.Machine

@[simp] theorem runCommand_getStatus (s : State) : runCommand .getStatus s = .next s := rfl

@[simp] theorem getStatus_pc (s : State) : (getStatus s).pc = s.pc := rfl

/-- Entry `i` of the snapshot is the read of register `i`. -/
@[simp] theorem getStatus_registers_getElem (s : State) (i : Nat) (hi : i < 32) :
    (getStatus s).registers[i] = readReg s (BitVec.ofFin ⟨i, hi⟩) :=
  Vector.getElem_ofFn hi

/-- Settles O54: every entry of the snapshot is a register read, so entry 0 is the read of x0. -/
theorem getStatusReadsAndChangesNothing : Obligations.GetStatusReadsAndChangesNothing := by
  intro s
  have entry_zero : (getStatus s).registers[0] = 0 :=
    (getStatus_registers_getElem s 0 (by decide)).trans (readReg_zero s)
  have entry (r : RegIdx) : (getStatus s).registers[r.toNat]'(r.isLt) = readReg s r :=
    getStatus_registers_getElem s r.toNat r.isLt
  exact ⟨runCommand_getStatus s, getStatus_pc s, entry_zero, entry⟩

end Sys2Proof.Machine
end

section
/-! The decoder by opcode (R86, R93), and from it, format by format, the decoder on an encoded word (R85): the sub-decoder of
the format's opcode runs on the very fields that were packed. -/

namespace Sys2Proof

/-! ## The decoder by opcode -/

section ByOpcode
variable {w : Word}

theorem decode_of_opcodeOp (h : opcodeField w = opcodeOp) :
    decode w = decodeOp (funct7Field w) (funct3Field w) (rdField w) (rs1Field w) (rs2Field w) := by
  rw [decode, h]
  rfl

theorem decode_of_opcodeOpImm (h : opcodeField w = opcodeOpImm) :
    decode w = decodeOpImm (funct7Field w) (funct3Field w) (rdField w) (rs1Field w) (shamtField w) (immIField w) := by
  rw [decode, h]
  rfl

theorem decode_of_opcodeLoad (h : opcodeField w = opcodeLoad) :
    decode w = decodeLoad (funct3Field w) (rdField w) (rs1Field w) (immIField w) := by
  rw [decode, h]
  rfl

theorem decode_of_opcodeStore (h : opcodeField w = opcodeStore) :
    decode w = decodeStore (funct3Field w) (rs1Field w) (rs2Field w) (immSField w) := by
  rw [decode, h]
  rfl

theorem decode_of_opcodeBranch (h : opcodeField w = opcodeBranch) :
    decode w = decodeBranch (funct3Field w) (rs1Field w) (rs2Field w) (immBField w) := by
  rw [decode, h]
  rfl

theorem decode_of_opcodeJal (h : opcodeField w = opcodeJal) : decode w = .instr (.jal (rdField w) (immJField w)) := by
  rw [decode, h]
  rfl

theorem decode_of_opcodeJalr (h : opcodeField w = opcodeJalr) :
    decode w =
      if funct3Field w = 0b000 then .instr (.jalr (rdField w) (rs1Field w) (immIField w)) else .unsupported := by
  rw [decode, h]
  rfl

theorem decode_of_opcodeLui (h : opcodeField w = opcodeLui) : decode w = .instr (.lui (rdField w) (immUField w)) := by
  rw [decode, h]
  rfl

theorem decode_of_opcodeAuipc (h : opcodeField w = opcodeAuipc) :
    decode w = .instr (.auipc (rdField w) (immUField w)) := by
  rw [decode, h]
  rfl

end ByOpcode

/-! ## The decoder on an encoded word, by format -/

section ByFormat
variable (f7 : BitVec 7) (f3 : BitVec 3) (rd rs1 rs2 : RegIdx) (shamt : BitVec 5) (imm : BitVec 12)

theorem decode_encodeR : decode (encodeR f7 f3 rd rs1 rs2) = decodeOp f7 f3 rd rs1 rs2 := by
  simp [decode_of_opcodeOp]

/-- A word of the immediate form also has a funct7 and a shamt field, cut from the immediate; only shifts read them. -/
theorem decode_encodeI_opImm :
    decode (encodeI opcodeOpImm f3 rd rs1 imm) =
      decodeOpImm (funct7Field (encodeI opcodeOpImm f3 rd rs1 imm)) f3 rd rs1
        (shamtField (encodeI opcodeOpImm f3 rd rs1 imm)) imm := by
  simp [decode_of_opcodeOpImm]

/-- A word of the shift form also has an I-immediate; only the other OP-IMM instructions read it. -/
theorem decode_encodeShift :
    decode (encodeShift f7 f3 rd rs1 shamt) =
      decodeOpImm f7 f3 rd rs1 shamt (immIField (encodeShift f7 f3 rd rs1 shamt)) := by
  simp [decode_of_opcodeOpImm]

theorem decode_encodeI_load : decode (encodeI opcodeLoad f3 rd rs1 imm) = decodeLoad f3 rd rs1 imm := by
  simp [decode_of_opcodeLoad]

theorem decode_encodeI_jalr : decode (encodeI opcodeJalr 0b000 rd rs1 imm) = .instr (.jalr rd rs1 imm) := by
  simp [decode_of_opcodeJalr]

theorem decode_encodeS : decode (encodeS f3 rs1 rs2 imm) = decodeStore f3 rs1 rs2 imm := by
  simp [decode_of_opcodeStore]

theorem decode_encodeB (immB : BitVec 13) (even : evenDisplacement immB = true) :
    decode (encodeB f3 rs1 rs2 immB) = decodeBranch f3 rs1 rs2 immB := by
  simp [decode_of_opcodeBranch, immBField_encodeB, even]

theorem decode_encodeJ (immJ : BitVec 21) (even : evenDisplacement immJ = true) :
    decode (encodeJ rd immJ) = .instr (.jal rd immJ) := by
  simp [decode_of_opcodeJal, immJField_encodeJ, even]

theorem decode_encodeU_lui (immU : BitVec 20) : decode (encodeU opcodeLui rd immU) = .instr (.lui rd immU) := by
  simp [decode_of_opcodeLui]

theorem decode_encodeU_auipc (immU : BitVec 20) : decode (encodeU opcodeAuipc rd immU) = .instr (.auipc rd immU) := by
  simp [decode_of_opcodeAuipc]

end ByFormat

/-- Settles O26: the instruction's format gives its sub-decoder and operands, and the sub-decoder finds the funct3 (and funct7)
that `encode` wrote for it. Only branches and JAL need the instruction to be well formed. -/
theorem decodeEncodeAgree : Obligations.DecodeEncodeAgree := by
  intro i wf
  cases i with
  | add | sub | sll | slt | sltu | xor | srl | sra | or | and
  | mul | mulh | mulhsu | mulhu | div | divu | rem | remu => exact decode_encodeR ..
  | addi | slti | sltiu | xori | ori | andi => exact decode_encodeI_opImm ..
  | slli | srli | srai => exact decode_encodeShift ..
  | lb | lh | lw | lbu | lhu => exact decode_encodeI_load ..
  | sb | sh | sw => exact decode_encodeS ..
  | beq | bne | blt | bge | bltu | bgeu => exact decode_encodeB _ _ _ _ wf
  | jal => exact decode_encodeJ _ _ wf
  | jalr => exact decode_encodeI_jalr ..
  | lui => exact decode_encodeU_lui ..
  | auipc => exact decode_encodeU_auipc ..

end Sys2Proof
end

section
/-! The values of the I-, S- and U-immediates and of the shift amount (R78, R79, R80, R82). -/

namespace Sys2Proof.Machine

/-- Sign extension to 32 bits keeps the signed value. -/
@[simp] theorem toInt_imm12 (imm : BitVec 12) : (imm12 imm).toInt = imm.toInt :=
  BitVec.toInt_signExtend_of_le (by decide)

theorem toInt_imm12_range (imm : BitVec 12) : -2048 ≤ (imm12 imm).toInt ∧ (imm12 imm).toInt ≤ 2047 := by
  have lower : -2 ^ 11 ≤ imm.toInt := BitVec.le_toInt imm
  have upper : imm.toInt < 2 ^ 11 := BitVec.toInt_lt
  rw [toInt_imm12]
  omega

/-- The upper piece of the S-immediate carries the sign, the lower one is unsigned (R80). -/
theorem toInt_immSField (w : Word) :
    (immSField w).toInt = 32 * (w.extractLsb' 25 7).toInt + (w.extractLsb' 7 5).toNat :=
  BitVec.toInt_append

theorem toNat_shamtField (w : Word) : (shamtField w).toNat = w.toNat / 2 ^ 20 % 32 := by
  rw [shamtField, BitVec.extractLsb'_toNat, Nat.shiftRight_eq_div_pow]

/-- The U-immediate is the word with its lower 12 bits masked out: they are shifted out and zeros shifted in (R82). -/
theorem immU_immUField (w : Word) : immU (immUField w) = w &&& 0xFFFFF000 := by
  have setWidth_immUField : (immUField w).setWidth 32 = w >>> 12 := by
    rw [BitVec.setWidth_eq_append (by decide), BitVec.ushiftRight_eq_extractLsb'_of_lt (by decide)]
    rfl
  calc immU (immUField w)
      = w >>> 12 <<< 12 := by rw [immU, setWidth_immUField]
    _ = w &&& BitVec.allOnes 32 <<< 12 := BitVec.shiftLeft_ushiftRight
    _ = w &&& 0xFFFFF000 := rfl

/-- Settles O24, one immediate after the other. -/
theorem immediatesOfTypesISU : Obligations.ImmediatesOfTypesISU := by
  intro w
  have immI := toInt_imm12 (immIField w)
  have immS := (toInt_imm12 (immSField w)).trans (toInt_immSField w)
  exact ⟨⟨immI, toInt_imm12_range _⟩, toNat_shamtField w, ⟨immS, toInt_imm12_range _⟩, immU_immUField w⟩

end Sys2Proof.Machine
end

section
/-! The two branches of `step` that execute no instruction: fetch past the end of the program (R120) and a word that decodes to
no instruction (R122). -/

namespace Sys2Proof.Machine
open Sys2Proof.Claims

section
variable {s : State}

theorem step_of_fetch_eq_none (h : fetch s = none) : step s = .next (endOfProgram s) := by
  rw [step, h]

theorem step_of_decode_eq_unsupported {w : Word} (hf : fetch s = some w) (hd : decode w = .unsupported) :
    step s = .next (errorStep .unsupportedOpcode s) := by
  rw [step, hf]
  simp only [hd, raise]

theorem fetch_eq_some_getElem (h : s.pc.toNat / 4 < s.program.length) : fetch s = some s.program[s.pc.toNat / 4] :=
  List.getElem?_eq_getElem h

end

/-- The report of PC_OUT_OF_BOUNDS is no error reset: even the pc stays (R120). -/
theorem writesPcOnly_endOfProgram (s : State) : WritesPcOnly s (endOfProgram s) s.pc where
  registers := readReg_endOfProgram s
  pc := endOfProgram_pc s
  memory _ := congrArg (Memory.readByte · _) (endOfProgram_mem s)
  machine := ⟨endOfProgram_memWords s, endOfProgram_program s, endOfProgram_params s⟩

/-- Settles O30: at or beyond the end nothing is fetched, so the Step is the end-of-program report; below it fetch is the list
lookup. -/
theorem fetchStopsAtProgramEnd : Obligations.FetchStopsAtProgramEnd := by
  refine ⟨fun s atEnd => ?_, fun _ below => fetch_eq_some_getElem below⟩
  have step_eq : step s = .next (endOfProgram s) := step_of_fetch_eq_none ((fetch_eq_none_iff s).mpr atEnd)
  exact ⟨_, _, step_eq, writesPcOnly_endOfProgram s, rfl, rfl, rfl⟩

/-- Settles O32: the Step is the error reset for UNSUPPORTED_OPCODE, whose outcome names that error. -/
theorem unsupportedWordsRaise : Obligations.UnsupportedWordsRaise := by
  intro s w hf hd
  exact ⟨_, _, step_of_decode_eq_unsupported hf hd, errorStep_lastOutcome .unsupportedOpcode s, rfl, rfl⟩

end Sys2Proof.Machine
end

section
/-! The error kind that a Step reports (R250): NONE on success, PC_OUT_OF_BOUNDS at the end of the program, and otherwise a kind
with a cause in the table of R251, in which INVALID_REGISTER has none. -/

namespace Sys2Proof.Machine

section
variable {s t : State} {o : StepOutcome}

theorem error_of_lastOutcome_endOfProgram (h : (endOfProgram s).lastOutcome = some o) : o.error = .pcOutOfBounds := by
  cases h
  rfl

theorem error_of_lastOutcome_errorStep {e : ExecutionError} (h : (errorStep e s).lastOutcome = some o) : o.error = e := by
  cases h
  rfl

theorem error_of_lastOutcome_commit {e : Effect} (h : (commit e s).lastOutcome = some o) : o.error = .none := by
  cases h
  rfl

/-- Every error kind that a step can report. -/
theorem step_error_cases (hs : step s = .next t) (ho : t.lastOutcome = some o) :
    o.error = .none ∨ o.error = .pcOutOfBounds ∨ Raised s o.error := by
  rcases step_next_cases hs with ⟨_, rfl⟩ | ⟨e, raised, rfl⟩ | ⟨_, _, _, _, _, _, rfl⟩
  · exact .inr (.inl (error_of_lastOutcome_endOfProgram ho))
  · have error_eq : o.error = e := error_of_lastOutcome_errorStep ho
    exact .inr (.inr (error_eq ▸ raised))
  · exact .inl (error_of_lastOutcome_commit ho)

end

/-- No row of the table of R251 has INVALID_REGISTER for its kind (R252). -/
theorem not_raised_invalidRegister (s : State) : ¬ Raised s .invalidRegister := nofun

/-- Settles O37: of the kinds that a step can report, NONE and PC_OUT_OF_BOUNDS are other kinds, and a raised kind has a cause. -/
theorem invalidRegisterIsNeverRaised : Obligations.InvalidRegisterIsNeverRaised := by
  intro s t o hs ho is_invalidRegister
  have error_cases := step_error_cases hs ho
  rw [is_invalidRegister] at error_cases
  rcases error_cases with is_none | is_pcOutOfBounds | raised
  · cases is_none
  · cases is_pcOutOfBounds
  · exact not_raised_invalidRegister s raised

end Sys2Proof.Machine
end

section
/-! The round trip from the word's side (R85): a sub-decoder that gives an instruction gives one whose encoding puts the very
fields the sub-decoder was handed back in their places, so a word that decodes is rebuilt from its own fields. -/

namespace Sys2Proof

/-- Whatever instruction `d` gives is well formed and encodes to `w`. -/
def RoundTrips (d : Decoded) (w : Word) : Prop := ∀ i, d = .instr i → encode i = w ∧ i.wellFormed = true

theorem RoundTrips.unsupported {w : Word} : RoundTrips .unsupported w := nofun

theorem RoundTrips.instr {i : Instr} {w : Word} (he : encode i = w) (hw : i.wellFormed = true) :
    RoundTrips (.instr i) w := by
  rintro _ ⟨⟩
  exact ⟨he, hw⟩

theorem RoundTrips.of_eq {d : Decoded} {v w : Word} (h : RoundTrips d v) (hvw : v = w) : RoundTrips d w := hvw ▸ h

/-- One branch of a sub-decoder: what stands there where the field `a` has the value `b`, and the rest elsewhere. -/
theorem RoundTrips.ite {n : Nat} {a b : BitVec n} {d d' : Decoded} {w : Word} (h : a = b → RoundTrips d w)
    (h' : RoundTrips d' w) : RoundTrips (if a = b then d else d') w := by
  split
  · exact h ‹_›
  · exact h'

/-- A branch of a sub-decoder that gives an instruction. -/
theorem RoundTrips.iteInstr {n : Nat} {a b : BitVec n} {i : Instr} {d : Decoded} {w : Word} (he : a = b → encode i = w)
    (hw : i.wellFormed = true) (h : RoundTrips d w) : RoundTrips (if a = b then .instr i else d) w :=
  .ite (fun hab => .instr (he hab) hw) h

section BySubDecoder
variable {f7 : BitVec 7} {f3 : BitVec 3} {rd rs1 rs2 : RegIdx} {shamt : BitVec 5} {imm : BitVec 12}

theorem roundTrips_decodeOpBase : RoundTrips (decodeOpBase f3 rd rs1 rs2) (encodeR funct7Base f3 rd rs1 rs2) := by
  unfold decodeOpBase
  iterate 8 refine .iteInstr (by rintro rfl; rfl) rfl ?_
  exact .unsupported

theorem roundTrips_decodeOpAlt : RoundTrips (decodeOpAlt f3 rd rs1 rs2) (encodeR funct7Alt f3 rd rs1 rs2) := by
  unfold decodeOpAlt
  iterate 2 refine .iteInstr (by rintro rfl; rfl) rfl ?_
  exact .unsupported

theorem roundTrips_decodeOpM : RoundTrips (decodeOpM f3 rd rs1 rs2) (encodeR funct7M f3 rd rs1 rs2) := by
  unfold decodeOpM
  iterate 8 refine .iteInstr (by rintro rfl; rfl) rfl ?_
  exact .unsupported

theorem roundTrips_decodeOp : RoundTrips (decodeOp f7 f3 rd rs1 rs2) (encodeR f7 f3 rd rs1 rs2) := by
  refine .ite ?base (.ite ?alt (.ite ?m .unsupported))
  case base => rintro rfl; exact roundTrips_decodeOpBase
  case alt => rintro rfl; exact roundTrips_decodeOpAlt
  case m => rintro rfl; exact roundTrips_decodeOpM

/-- OP-IMM has two forms: `w` is the word by either of them, the shifts being rebuilt by the shift form and the others by the
immediate form (R73). -/
theorem roundTrips_decodeOpImm {w : Word} (shiftForm : encodeShift f7 f3 rd rs1 shamt = w)
    (immediateForm : encodeI opcodeOpImm f3 rd rs1 imm = w) :
    RoundTrips (decodeOpImm f7 f3 rd rs1 shamt imm) w := by
  unfold decodeOpImm
  iterate 6 refine .iteInstr (by rintro rfl; exact immediateForm) rfl ?_
  refine .ite ?left (.ite ?right .unsupported)
  case left =>
    rintro rfl
    exact .iteInstr (by rintro rfl; exact shiftForm) rfl .unsupported
  case right =>
    rintro rfl
    iterate 2 refine .iteInstr (by rintro rfl; exact shiftForm) rfl ?_
    exact .unsupported

theorem roundTrips_decodeLoad : RoundTrips (decodeLoad f3 rd rs1 imm) (encodeI opcodeLoad f3 rd rs1 imm) := by
  unfold decodeLoad
  iterate 5 refine .iteInstr (by rintro rfl; rfl) rfl ?_
  exact .unsupported

theorem roundTrips_decodeStore : RoundTrips (decodeStore f3 rs1 rs2 imm) (encodeS f3 rs1 rs2 imm) := by
  unfold decodeStore
  iterate 3 refine .iteInstr (by rintro rfl; rfl) rfl ?_
  exact .unsupported

theorem roundTrips_decodeBranch {immB : BitVec 13} (even : evenDisplacement immB = true) :
    RoundTrips (decodeBranch f3 rs1 rs2 immB) (encodeB f3 rs1 rs2 immB) := by
  unfold decodeBranch
  iterate 6 refine .iteInstr (by rintro rfl; rfl) even ?_
  exact .unsupported

end BySubDecoder

/-- Every sub-decoder's round trip, on the fields of a word: they and the opcode are the word again. -/
theorem roundTrips_decode (w : Word) : RoundTrips (decode w) w := by
  have rebuilt {v : Word} {op : BitVec 7} (fields : v = w.extractLsb' 7 25 ++ op) (h : opcodeField w = op) : v = w :=
    fields.trans (word_of_opcode w op h)
  unfold decode
  dsimp only
  refine .ite ?op (.ite ?opImm (.ite ?load (.ite ?store (.ite ?branch (.iteInstr ?jal (evenDisplacement_immJField w)
    (.ite ?jalr (.iteInstr ?lui rfl (.iteInstr ?auipc rfl .unsupported))))))))
  case op => exact fun h => roundTrips_decodeOp.of_eq (rebuilt (encodeR_fields w) h)
  case opImm =>
    exact fun h => roundTrips_decodeOpImm (rebuilt (encodeShift_fields w) h) (rebuilt (encodeI_fields w _) h)
  case load => exact fun h => roundTrips_decodeLoad.of_eq (rebuilt (encodeI_fields w _) h)
  case store => exact fun h => roundTrips_decodeStore.of_eq (rebuilt (encodeS_fields w) h)
  case branch =>
    exact fun h => (roundTrips_decodeBranch (evenDisplacement_immBField w)).of_eq (rebuilt (encodeB_fields w) h)
  case jal => exact rebuilt (encodeJ_fields w)
  case jalr =>
    exact fun h => .iteInstr (fun hf => by rw [encode, ← hf, rebuilt (encodeI_fields w _) h]) rfl .unsupported
  case lui => exact rebuilt (encodeU_fields w _)
  case auipc => exact rebuilt (encodeU_fields w _)

/-- Settles O27: the round trip of the decoder. -/
theorem encodeDecodeAgree : Obligations.EncodeDecodeAgree := roundTrips_decode

end Sys2Proof
end

section
/-! The decoder and the opcode table's patterns and masks (R86-R93): what a masked word fixes, what the decoder makes of a word
with a row's pattern, and which row covers an encoded word. -/

namespace Sys2Proof

/-! ## The fields that a pattern fixes -/

section Pattern
variable {w p : Word}

theorem opcodeField_of_maskOp (h : w &&& maskOp = p) : opcodeField w = opcodeField p :=
  extractLsb'_of_and h 0 7 (by decide)

theorem opcodeField_of_maskOpFunct3 (h : w &&& maskOpFunct3 = p) : opcodeField w = opcodeField p :=
  extractLsb'_of_and h 0 7 (by decide)

theorem funct3Field_of_maskOpFunct3 (h : w &&& maskOpFunct3 = p) : funct3Field w = funct3Field p :=
  extractLsb'_of_and h 12 3 (by decide)

theorem opcodeField_of_maskOpFunct (h : w &&& maskOpFunct = p) : opcodeField w = opcodeField p :=
  extractLsb'_of_and h 0 7 (by decide)

theorem funct3Field_of_maskOpFunct (h : w &&& maskOpFunct = p) : funct3Field w = funct3Field p :=
  extractLsb'_of_and h 12 3 (by decide)

theorem funct7Field_of_maskOpFunct (h : w &&& maskOpFunct = p) : funct7Field w = funct7Field p :=
  extractLsb'_of_and h 25 7 (by decide)

/-! ## The decoder on a word with a pattern -/

theorem decode_of_opPattern (h : w &&& maskOpFunct = p) (hop : opcodeField p = opcodeOp) :
    decode w = decodeOp (funct7Field p) (funct3Field p) (rdField w) (rs1Field w) (rs2Field w) := by
  rw [decode_of_opcodeOp ((opcodeField_of_maskOpFunct h).trans hop), funct7Field_of_maskOpFunct h,
    funct3Field_of_maskOpFunct h]

theorem decode_of_shiftPattern (h : w &&& maskOpFunct = p) (hop : opcodeField p = opcodeOpImm) :
    decode w =
      decodeOpImm (funct7Field p) (funct3Field p) (rdField w) (rs1Field w) (shamtField w) (immIField w) := by
  rw [decode_of_opcodeOpImm ((opcodeField_of_maskOpFunct h).trans hop), funct7Field_of_maskOpFunct h,
    funct3Field_of_maskOpFunct h]

theorem decode_of_opImmPattern (h : w &&& maskOpFunct3 = p) (hop : opcodeField p = opcodeOpImm) :
    decode w =
      decodeOpImm (funct7Field w) (funct3Field p) (rdField w) (rs1Field w) (shamtField w) (immIField w) := by
  rw [decode_of_opcodeOpImm ((opcodeField_of_maskOpFunct3 h).trans hop), funct3Field_of_maskOpFunct3 h]

theorem decode_of_loadPattern (h : w &&& maskOpFunct3 = p) (hop : opcodeField p = opcodeLoad) :
    decode w = decodeLoad (funct3Field p) (rdField w) (rs1Field w) (immIField w) := by
  rw [decode_of_opcodeLoad ((opcodeField_of_maskOpFunct3 h).trans hop), funct3Field_of_maskOpFunct3 h]

theorem decode_of_storePattern (h : w &&& maskOpFunct3 = p) (hop : opcodeField p = opcodeStore) :
    decode w = decodeStore (funct3Field p) (rs1Field w) (rs2Field w) (immSField w) := by
  rw [decode_of_opcodeStore ((opcodeField_of_maskOpFunct3 h).trans hop), funct3Field_of_maskOpFunct3 h]

theorem decode_of_branchPattern (h : w &&& maskOpFunct3 = p) (hop : opcodeField p = opcodeBranch) :
    decode w = decodeBranch (funct3Field p) (rs1Field w) (rs2Field w) (immBField w) := by
  rw [decode_of_opcodeBranch ((opcodeField_of_maskOpFunct3 h).trans hop), funct3Field_of_maskOpFunct3 h]

theorem decode_of_jalrPattern (h : w &&& maskOpFunct3 = 0x00000067) :
    decode w = .instr (.jalr (rdField w) (rs1Field w) (immIField w)) := by
  exact (decode_of_opcodeJalr (opcodeField_of_maskOpFunct3 h)).trans (if_pos (funct3Field_of_maskOpFunct3 h))

theorem decode_of_jalPattern (h : w &&& maskOp = 0x0000006F) : decode w = .instr (.jal (rdField w) (immJField w)) :=
  decode_of_opcodeJal (opcodeField_of_maskOp h)

theorem decode_of_luiPattern (h : w &&& maskOp = 0x00000037) : decode w = .instr (.lui (rdField w) (immUField w)) :=
  decode_of_opcodeLui (opcodeField_of_maskOp h)

theorem decode_of_auipcPattern (h : w &&& maskOp = 0x00000017) :
    decode w = .instr (.auipc (rdField w) (immUField w)) :=
  decode_of_opcodeAuipc (opcodeField_of_maskOp h)

end Pattern

/-! ## A covered word decodes to the row's instruction -/

/-- The word decodes to an instruction of the mnemonic. -/
def DecodesTo (w : Word) (mnemonic : String) : Prop := ∃ i, decode w = .instr i ∧ i.mnemonic = mnemonic

theorem decodesTo_of_covers_rowsRegister {w : Word} {r : OpcodeRow} (hr : r ∈ rowsRegister) (h : r.covers w = true) :
    DecodesTo w r.mnemonic := by
  fin_cases hr <;> exact ⟨_, decode_of_opPattern (eq_of_beq h) rfl, rfl⟩

theorem decodesTo_of_covers_rowsM {w : Word} {r : OpcodeRow} (hr : r ∈ rowsM) (h : r.covers w = true) :
    DecodesTo w r.mnemonic := by
  fin_cases hr <;> exact ⟨_, decode_of_opPattern (eq_of_beq h) rfl, rfl⟩

theorem decodesTo_of_covers_rowsImmediate {w : Word} {r : OpcodeRow} (hr : r ∈ rowsImmediate) (h : r.covers w = true) :
    DecodesTo w r.mnemonic := by
  fin_cases hr
  iterate 6 exact ⟨_, decode_of_opImmPattern (eq_of_beq h) rfl, rfl⟩
  iterate 3 exact ⟨_, decode_of_shiftPattern (eq_of_beq h) rfl, rfl⟩

theorem decodesTo_of_covers_rowsLoadStore {w : Word} {r : OpcodeRow} (hr : r ∈ rowsLoadStore) (h : r.covers w = true) :
    DecodesTo w r.mnemonic := by
  fin_cases hr
  iterate 5 exact ⟨_, decode_of_loadPattern (eq_of_beq h) rfl, rfl⟩
  iterate 3 exact ⟨_, decode_of_storePattern (eq_of_beq h) rfl, rfl⟩

theorem decodesTo_of_covers_rowsControl {w : Word} {r : OpcodeRow} (hr : r ∈ rowsControl) (h : r.covers w = true) :
    DecodesTo w r.mnemonic := by
  fin_cases hr
  iterate 6 exact ⟨_, decode_of_branchPattern (eq_of_beq h) rfl, rfl⟩
  · exact ⟨_, decode_of_jalPattern (eq_of_beq h), rfl⟩
  · exact ⟨_, decode_of_jalrPattern (eq_of_beq h), rfl⟩
  · exact ⟨_, decode_of_luiPattern (eq_of_beq h), rfl⟩
  · exact ⟨_, decode_of_auipcPattern (eq_of_beq h), rfl⟩

theorem decodesTo_of_covers {w : Word} {r : OpcodeRow} (hr : r ∈ opcodeRows) (h : r.covers w = true) :
    DecodesTo w r.mnemonic := by
  simp only [opcodeRows, List.mem_append] at hr
  obtain (((hr | hr) | hr) | hr) | hr := hr
  · exact decodesTo_of_covers_rowsRegister hr h
  · exact decodesTo_of_covers_rowsM hr h
  · exact decodesTo_of_covers_rowsImmediate hr h
  · exact decodesTo_of_covers_rowsLoadStore hr h
  · exact decodesTo_of_covers_rowsControl hr h

/-! ## An encoded word is covered by its instruction's row

The mask takes every operand out of an encoded word, so the row's pattern is the word with all operands 0. -/

section Masked
variable (f7 : BitVec 7) (f3 : BitVec 3) (op : BitVec 7) (rd rs1 rs2 : RegIdx) (shamt : BitVec 5) (imm : BitVec 12)
  (immB : BitVec 13) (immU : BitVec 20) (immJ : BitVec 21)

theorem encodeR_and_maskOpFunct : encodeR f7 f3 rd rs1 rs2 &&& maskOpFunct = encodeR f7 f3 0 0 0 := by
  have masked : (f7 ++ rs2 ++ rs1 ++ f3 ++ rd ++ opcodeOp) &&&
      (BitVec.allOnes 7 ++ 0#5 ++ 0#5 ++ BitVec.allOnes 3 ++ 0#5 ++ BitVec.allOnes 7) =
      f7 ++ 0#5 ++ 0#5 ++ f3 ++ 0#5 ++ opcodeOp := by
    simp only [BitVec.and_append, BitVec.and_allOnes, BitVec.and_zero]
  exact masked

theorem encodeShift_and_maskOpFunct : encodeShift f7 f3 rd rs1 shamt &&& maskOpFunct = encodeShift f7 f3 0 0 0 := by
  have masked : (f7 ++ shamt ++ rs1 ++ f3 ++ rd ++ opcodeOpImm) &&&
      (BitVec.allOnes 7 ++ 0#5 ++ 0#5 ++ BitVec.allOnes 3 ++ 0#5 ++ BitVec.allOnes 7) =
      f7 ++ 0#5 ++ 0#5 ++ f3 ++ 0#5 ++ opcodeOpImm := by
    simp only [BitVec.and_append, BitVec.and_allOnes, BitVec.and_zero]
  exact masked

theorem encodeI_and_maskOpFunct3 : encodeI op f3 rd rs1 imm &&& maskOpFunct3 = encodeI op f3 0 0 0 := by
  have masked : (imm ++ rs1 ++ f3 ++ rd ++ op) &&& (0#12 ++ 0#5 ++ BitVec.allOnes 3 ++ 0#5 ++ BitVec.allOnes 7) =
      0#12 ++ 0#5 ++ f3 ++ 0#5 ++ op := by
    simp only [BitVec.and_append, BitVec.and_allOnes, BitVec.and_zero]
  exact masked

theorem encodeS_and_maskOpFunct3 : encodeS f3 rs1 rs2 imm &&& maskOpFunct3 = encodeS f3 0 0 0 := by
  have masked : (imm.extractLsb' 5 7 ++ rs2 ++ rs1 ++ f3 ++ imm.extractLsb' 0 5 ++ opcodeStore) &&&
      (0#7 ++ 0#5 ++ 0#5 ++ BitVec.allOnes 3 ++ 0#5 ++ BitVec.allOnes 7) =
      0#7 ++ 0#5 ++ 0#5 ++ f3 ++ 0#5 ++ opcodeStore := by
    simp only [BitVec.and_append, BitVec.and_allOnes, BitVec.and_zero]
  exact masked

theorem encodeB_and_maskOpFunct3 : encodeB f3 rs1 rs2 immB &&& maskOpFunct3 = encodeB f3 0 0 0 := by
  have masked : (immB.extractLsb' 12 1 ++ immB.extractLsb' 5 6 ++ rs2 ++ rs1 ++ f3 ++ immB.extractLsb' 1 4 ++
      immB.extractLsb' 11 1 ++ opcodeBranch) &&&
      (0#1 ++ 0#6 ++ 0#5 ++ 0#5 ++ BitVec.allOnes 3 ++ 0#4 ++ 0#1 ++ BitVec.allOnes 7) =
      0#1 ++ 0#6 ++ 0#5 ++ 0#5 ++ f3 ++ 0#4 ++ 0#1 ++ opcodeBranch := by
    simp only [BitVec.and_append, BitVec.and_allOnes, BitVec.and_zero]
  exact masked

theorem encodeU_and_maskOp : encodeU op rd immU &&& maskOp = encodeU op 0 0 := by
  have masked : (immU ++ rd ++ op) &&& (0#20 ++ 0#5 ++ BitVec.allOnes 7) = 0#20 ++ 0#5 ++ op := by
    simp only [BitVec.and_append, BitVec.and_allOnes, BitVec.and_zero]
  exact masked

theorem encodeJ_and_maskOp : encodeJ rd immJ &&& maskOp = encodeJ 0 0 := by
  have masked : (immJ.extractLsb' 20 1 ++ immJ.extractLsb' 1 10 ++ immJ.extractLsb' 11 1 ++ immJ.extractLsb' 12 8 ++ rd ++
      opcodeJal) &&& (0#1 ++ 0#10 ++ 0#1 ++ 0#8 ++ 0#5 ++ BitVec.allOnes 7) =
      0#1 ++ 0#10 ++ 0#1 ++ 0#8 ++ 0#5 ++ opcodeJal := by
    simp only [BitVec.and_append, BitVec.and_allOnes, BitVec.and_zero]
  exact masked

end Masked

/-- A row of the table with the mnemonic covers the word. -/
def CoveredAs (mnemonic : String) (w : Word) : Prop := ∃ r ∈ opcodeRows, r.covers w = true ∧ r.mnemonic = mnemonic

theorem coveredAs_of_mem {mnemonic : String} {w pattern mask : Word} (masked : w &&& mask = pattern)
    (hr : opcodeRows.contains ⟨mnemonic, pattern, mask⟩ = true) : CoveredAs mnemonic w :=
  ⟨_, List.contains_iff_mem.mp hr, beq_iff_eq.mpr masked, rfl⟩

theorem coveredAs_encode (i : Instr) : CoveredAs i.mnemonic (encode i) := by
  cases i with
  | add | sub | sll | slt | sltu | xor | srl | sra | or | and
  | mul | mulh | mulhsu | mulhu | div | divu | rem | remu => exact coveredAs_of_mem (encodeR_and_maskOpFunct ..) rfl
  | slli | srli | srai => exact coveredAs_of_mem (encodeShift_and_maskOpFunct ..) rfl
  | addi | slti | sltiu | xori | ori | andi | lb | lh | lw | lbu | lhu | jalr =>
    exact coveredAs_of_mem (encodeI_and_maskOpFunct3 ..) rfl
  | sb | sh | sw => exact coveredAs_of_mem (encodeS_and_maskOpFunct3 ..) rfl
  | beq | bne | blt | bge | bltu | bgeu => exact coveredAs_of_mem (encodeB_and_maskOpFunct3 ..) rfl
  | lui | auipc => exact coveredAs_of_mem (encodeU_and_maskOp ..) rfl
  | jal => exact coveredAs_of_mem (encodeJ_and_maskOp ..) rfl

/-- Settles O28: a word that decodes is its instruction's encoding, which the instruction's row covers; a covered word has the
fields that its row fixes, and the decoder reads no others. -/
theorem decoderAgreesWithOpcodeTable : Obligations.DecoderAgreesWithOpcodeTable := by
  refine ⟨fun w i hd => ?_, fun _ _ hr h => decodesTo_of_covers hr h⟩
  obtain ⟨encoded, _⟩ := encodeDecodeAgree w i hd
  exact encoded ▸ coveredAs_encode i

/-! ## Words that the opcode map does not list -/

section Unlisted
variable {f7 : BitVec 7} {f3 : BitVec 3} {rd rs1 rs2 : RegIdx} {shamt : BitVec 5} {imm : BitVec 12} {immB : BitVec 13}

theorem decodeOp_of_unlisted_funct7 (h : f7 ∉ [0#7, 1#7, 32#7]) : decodeOp f7 f3 rd rs1 rs2 = .unsupported := by
  simp only [List.mem_cons, List.not_mem_nil, or_false, not_or] at h
  obtain ⟨not_base, not_m, not_alt⟩ := h
  exact (if_neg not_base).trans ((if_neg not_alt).trans (if_neg not_m))

theorem decodeOp_alt_of_unlisted_funct3 (h7 : f7 = 32#7) (h : f3 ∉ [0#3, 5#3]) :
    decodeOp f7 f3 rd rs1 rs2 = .unsupported := by
  subst h7
  simp only [List.mem_cons, List.not_mem_nil, or_false, not_or] at h
  obtain ⟨not_sub, not_sra⟩ := h
  exact (if_neg not_sub).trans (if_neg not_sra)

theorem decodeOpImm_left_of_unlisted_funct7 (h3 : f3 = 1#3) (h : f7 ≠ 0#7) :
    decodeOpImm f7 f3 rd rs1 shamt imm = .unsupported := by
  subst h3
  exact if_neg h

theorem decodeOpImm_right_of_unlisted_funct7 (h3 : f3 = 5#3) (h : f7 ∉ [0#7, 32#7]) :
    decodeOpImm f7 f3 rd rs1 shamt imm = .unsupported := by
  subst h3
  simp only [List.mem_cons, List.not_mem_nil, or_false, not_or] at h
  obtain ⟨not_srli, not_srai⟩ := h
  exact (if_neg not_srli).trans (if_neg not_srai)

theorem decodeLoad_of_unlisted_funct3 (h : f3 ∈ [3#3, 6#3, 7#3]) : decodeLoad f3 rd rs1 imm = .unsupported := by
  fin_cases h <;> rfl

theorem decodeStore_of_unlisted_funct3 (h : f3 ∈ [3#3, 4#3, 5#3, 6#3, 7#3]) :
    decodeStore f3 rs1 rs2 imm = .unsupported := by
  fin_cases h <;> rfl

theorem decodeBranch_of_unlisted_funct3 (h : f3 ∈ [2#3, 3#3]) :
    decodeBranch f3 rs1 rs2 immB = .unsupported := by
  fin_cases h <;> rfl

theorem decode_of_unlisted_opcode {w : Word}
    (h : opcodeField w ∉ [opcodeOp, opcodeOpImm, opcodeLoad, opcodeStore, opcodeBranch, opcodeJal, opcodeJalr, opcodeLui,
      opcodeAuipc]) : decode w = .unsupported := by
  simp only [List.mem_cons, List.not_mem_nil, or_false, not_or] at h
  simp only [decode, h, if_false]

end Unlisted

/-- Settles O33: the opcode chooses the sub-decoder, and none of its branches fits the unlisted field. -/
theorem unlistedWordsAreUnsupported : Obligations.UnlistedWordsAreUnsupported := by
  intro w
  refine ⟨decode_of_unlisted_opcode, fun hop h7 => ?_, fun hop h7 h3 => ?_, fun hop h3 h7 => ?_, fun hop h3 h7 => ?_,
    fun hop h3 => ?_, fun hop h3 => ?_, fun hop h3 => ?_, fun hop h3 => ?_⟩
  · exact (decode_of_opcodeOp hop).trans (decodeOp_of_unlisted_funct7 h7)
  · exact (decode_of_opcodeOp hop).trans (decodeOp_alt_of_unlisted_funct3 h7 h3)
  · exact (decode_of_opcodeOpImm hop).trans (decodeOpImm_left_of_unlisted_funct7 h3 h7)
  · exact (decode_of_opcodeOpImm hop).trans (decodeOpImm_right_of_unlisted_funct7 h3 h7)
  · exact (decode_of_opcodeLoad hop).trans (decodeLoad_of_unlisted_funct3 h3)
  · exact (decode_of_opcodeStore hop).trans (decodeStore_of_unlisted_funct3 h3)
  · exact (decode_of_opcodeBranch hop).trans (decodeBranch_of_unlisted_funct3 h3)
  · exact (decode_of_opcodeJalr hop).trans (if_neg h3)

/-- Settles O23: eight closed words. -/
theorem writtenWordsDecode : Obligations.WrittenWordsDecode := by
  unfold Obligations.WrittenWordsDecode
  decide

end Sys2Proof
end

section
/-! The invariant of the engine's states: creation, every step and every host command keep it (R24, R51, R30, R280). -/

namespace Sys2Proof.Machine

section
variable {s t : State}

theorem inv_create (memWords : Nat) (params : Params) : (State.create memWords params).Inv where
  memoryCanonical := Memory.wf_nil
  memoryInBounds := nofun
  pcAligned := rfl
  zeroSlot := rfl
  programFits := Nat.zero_le _

theorem State.Inv.endOfProgram (h : s.Inv) : (endOfProgram s).Inv where
  memoryCanonical := h.memoryCanonical
  memoryInBounds := h.memoryInBounds
  pcAligned := h.pcAligned
  zeroSlot := h.zeroSlot
  programFits := h.programFits

theorem State.Inv.errorStep (h : s.Inv) (e : ExecutionError) : (errorStep e s).Inv where
  memoryCanonical := h.memoryCanonical
  memoryInBounds := h.memoryInBounds
  pcAligned := rfl
  zeroSlot := rfl
  programFits := h.programFits

/-- The check that the access passed keeps a store within bounds, and the alignment test keeps the pc aligned. -/
theorem State.Inv.commit (h : s.Inv) {i : Instr} {e : Effect} (fits : EffectFits i s e) : (commit e s).Inv where
  memoryCanonical := wf_commit e s h.memoryCanonical
  memoryInBounds := inBounds_commit e s h.memoryInBounds fits.access
  pcAligned := fits.aligned h.pcAligned
  zeroSlot := (commit_zeroSlot e s).trans h.zeroSlot
  programFits := (commit_program e s).symm ▸ h.programFits

theorem State.Inv.step (h : s.Inv) (hs : step s = .next t) : t.Inv := by
  rcases step_next_cases hs with ⟨_, rfl⟩ | ⟨e, _, rfl⟩ | ⟨_, _, e, _, _, fits, rfl⟩
  · exact h.endOfProgram
  · exact h.errorStep e
  · exact h.commit fits

/-! ## Host commands -/

/-- What `LoadProgram` answers, and when (R6, R131). -/
theorem loadProgram_eq_next_iff {words : List Word} :
    loadProgram words s = .next t ↔ words.length ≤ maxProgramWords ∧ t = { s with program := words } := by
  unfold loadProgram
  split
  · rename_i fits
    exact ⟨fun h => ⟨fits, by cases h; rfl⟩, fun ⟨_, h⟩ => congrArg _ h.symm⟩
  · rename_i too_long
    exact ⟨nofun, fun ⟨fits, _⟩ => absurd fits too_long⟩

theorem State.Inv.loadProgram (h : s.Inv) {words : List Word} (hs : loadProgram words s = .next t) : t.Inv := by
  obtain ⟨fits, rfl⟩ := loadProgram_eq_next_iff.mp hs
  exact ⟨h.memoryCanonical, h.memoryInBounds, h.pcAligned, h.zeroSlot, fits⟩

theorem State.Inv.resetEngine (h : s.Inv) : (resetEngine s).Inv where
  memoryCanonical := Memory.wf_nil
  memoryInBounds := nofun
  pcAligned := rfl
  zeroSlot := rfl
  programFits := h.programFits

/-- Resizing lists no byte at or beyond the new size, so the invariant's bound does not depend on the old one. -/
theorem State.Inv.resizeMemory (h : s.Inv) (newWords : Nat) : (resizeMemory newWords s).Inv where
  memoryCanonical := Memory.wf_filter h.memoryCanonical _
  memoryInBounds _ hc := of_decide_eq_true (List.mem_filter.mp hc).2
  pcAligned := h.pcAligned
  zeroSlot := h.zeroSlot
  programFits := h.programFits

theorem State.Inv.runCommand (h : s.Inv) (c : Command) (hs : runCommand c s = .next t) : t.Inv := by
  cases c with
  | loadProgram words => exact h.loadProgram hs
  | reset => cases hs; exact h.resetEngine
  | step => exact h.step hs
  | getStatus => cases hs; exact h
  | resize newWords => cases hs; exact h.resizeMemory newWords

theorem State.Inv.launch (h : s.Inv) {words : List Word} (hs : launch words s = .next t) : t.Inv := by
  unfold Machine.launch at hs
  split at hs
  · rename_i loaded
    cases hs
    exact (h.loadProgram loaded).resetEngine
  · cases hs
  · cases hs

end

/-- Settles O41: the end of the program, the error reset and the commit of an effect each keep the invariant, and a step answers
no other state. -/
theorem stepKeepsTheInvariant : Obligations.StepKeepsTheInvariant := fun _ _ h hs => h.step hs

/-- Settles O42: the state after creation is one of the created states. -/
theorem resetMeetsTheInvariant : Obligations.ResetMeetsTheInvariant := inv_create defaultMemWords Params.hardware

/-- Settles O43, command by command. -/
theorem hostCommandsKeepTheInvariant : Obligations.HostCommandsKeepTheInvariant :=
  ⟨fun c _ _ h hs => h.runCommand c hs, fun _ _ _ h hs => h.launch hs⟩

end Sys2Proof.Machine
end

section
/-! What the outcome of a Step tells about the state it answers: a success is the commit of an effect that fits the instruction
that ran, an error other than PC_OUT_OF_BOUNDS is the error reset (R126, R127, R251, R256). -/

namespace Sys2Proof.Machine
open Sys2Proof.Claims

section
variable {s t : State} {o : StepOutcome}

@[simp] theorem runEnded_endOfProgram : runEnded (endOfProgram s) = true := rfl

@[simp] theorem runEnded_errorStep (e : ExecutionError) : runEnded (errorStep e s) = true := rfl

@[simp] theorem runEnded_commit (e : Effect) : runEnded (commit e s) = false := rfl

theorem runEnded_of_lastOutcome (ho : t.lastOutcome = some o) : runEnded t = !o.success := by
  rw [runEnded, ho]

/-- A step after which the run goes on committed an effect of the instruction that ran. -/
theorem step_succeeded (hs : step s = .next t) (hr : runEnded t = false) :
    ∃ i e, Runs s i ∧ EffectFits i s e ∧ t = commit e s := by
  rcases step_next_cases hs with ⟨_, rfl⟩ | ⟨e, _, rfl⟩ | ⟨w, i, e, hf, hd, fits, rfl⟩
  · cases runEnded_endOfProgram.symm.trans hr
  · cases (runEnded_errorStep e).symm.trans hr
  · exact ⟨i, e, ⟨w, hf, hd⟩, fits, rfl⟩

/-- A step that reports an error other than PC_OUT_OF_BOUNDS is the error reset for it, and the error has a cause. -/
theorem step_failed (hs : step s = .next t) (ho : t.lastOutcome = some o) (failed : o.success = false)
    (other : o.error ≠ .pcOutOfBounds) : Raised s o.error ∧ t = errorStep o.error s := by
  rcases step_next_cases hs with ⟨_, rfl⟩ | ⟨e, raised, rfl⟩ | ⟨_, _, e, _, _, _, rfl⟩
  · exact absurd (error_of_lastOutcome_endOfProgram ho) other
  · rw [error_of_lastOutcome_errorStep ho]
    exact ⟨raised, rfl⟩
  · have goesOn : (!o.success) = false := (runEnded_of_lastOutcome ho).symm.trans (runEnded_commit e)
    rw [failed] at goesOn
    cases goesOn

/-- The instruction that ran is the one the fetched word decodes to. -/
theorem runs_unique {i j : Instr} (hi : Runs s i) (hj : Runs s j) : i = j := by
  obtain ⟨w, hf, hd⟩ := hi
  obtain ⟨w', hf', hd'⟩ := hj
  cases hf.symm.trans hf'
  cases hd.symm.trans hd'
  rfl

/-! ## The error reset -/

theorem errorResets_errorStep (s : State) (e : ExecutionError) : ErrorResets s (errorStep e s) e where
  registers := readReg_errorStep e s
  pc := rfl
  memory _ := rfl
  machine := ⟨rfl, rfl, rfl⟩
  outcome := rfl

theorem fetch_of_pc_zero (h : s.pc = 0) : fetch s = s.program[0]? := by
  rw [fetch, fetchIndex, h]
  rfl

/-- Settles O34: such a step is `errorStep`, the one taking of an error. -/
theorem everyErrorIsTheErrorReset : Obligations.EveryErrorIsTheErrorReset := by
  intro s t o hs ho failed other
  obtain ⟨_, rfl⟩ := step_failed hs ho failed other
  exact errorResets_errorStep s o.error

/-- Settles O35: the error reset puts the pc at 0 and keeps the program. -/
theorem errorRestartsTheProgram : Obligations.ErrorRestartsTheProgram := by
  intro s t o hs ho failed other
  obtain ⟨_, rfl⟩ := step_failed hs ho failed other
  exact ⟨fetch_of_pc_zero rfl, readReg_errorStep o.error s⟩

/-! ## The causes of the errors (R251) -/

theorem Raised.divisionByZero (h : Raised s .divisionByZero) :
    ∃ i rd rs1 rs2, Runs s i ∧ readReg s rs2 = 0 ∧
      (i = .div rd rs1 rs2 ∨ i = .divu rd rs1 rs2 ∨ i = .rem rd rs1 rs2 ∨ i = .remu rd rs1 rs2) := by
  cases h with
  | divisor w i rd rs1 rs2 hf hd hz hi => exact ⟨i, rd, rs1, rs2, ⟨w, hf, hd⟩, hz, hi⟩

theorem Raised.invalidMemoryAccess (h : Raised s .invalidMemoryAccess) :
    ∃ i, Runs s i ∧ (i.isLoad = true ∨ i.isStore = true) := by
  cases h with
  | access w i hf hd hi => exact ⟨i, ⟨w, hf, hd⟩, hi⟩

theorem Raised.offsetNot32BitAligned (h : Raised s .offsetNot32BitAligned) :
    ∃ i, Runs s i ∧ i.isControlTransfer = true := by
  cases h with
  | alignment w i hf hd hi => exact ⟨i, ⟨w, hf, hd⟩, hi⟩

theorem Raised.unsupportedOpcode (h : Raised s .unsupportedOpcode) : ∃ w, fetch s = some w ∧ decode w = .unsupported := by
  cases h with
  | unsupported w hf hd => exact ⟨w, hf, hd⟩

theorem not_raised_pcOutOfBounds (s : State) : ¬ Raised s .pcOutOfBounds := nofun

/-- An error other than NONE and PC_OUT_OF_BOUNDS has a cause in the state the step started from. -/
theorem raised_of_error {e : ExecutionError} (hs : step s = .next t) (ho : t.lastOutcome = some o) (he : o.error = e)
    (some_error : e ≠ .none) (other : e ≠ .pcOutOfBounds) : Raised s e := by
  subst he
  exact ((step_error_cases hs ho).resolve_left some_error).resolve_left other

theorem atEnd_of_pcOutOfBounds (hs : step s = .next t) (ho : t.lastOutcome = some o) (he : o.error = .pcOutOfBounds) :
    s.program.length ≤ s.pc.toNat / 4 := by
  rcases step_next_cases hs with ⟨hf, _⟩ | ⟨e, raised, rfl⟩ | ⟨_, _, _, _, _, _, rfl⟩
  · exact (fetch_eq_none_iff s).mp hf
  · rw [← error_of_lastOutcome_errorStep ho, he] at raised
    exact absurd raised (not_raised_pcOutOfBounds s)
  · cases (error_of_lastOutcome_commit ho).symm.trans he

/-- Settles O36, row by row of the table of causes. -/
theorem errorsComeFromTheirInstructions : Obligations.ErrorsComeFromTheirInstructions := by
  intro s t o hs ho
  have raised {e : ExecutionError} (he : o.error = e) (some_error : e ≠ .none) (other : e ≠ .pcOutOfBounds) : Raised s e :=
    raised_of_error hs ho he some_error other
  exact ⟨fun he => (raised he nofun nofun).divisionByZero, fun he => (raised he nofun nofun).invalidMemoryAccess,
    fun he => (raised he nofun nofun).offsetNot32BitAligned, fun he => (raised he nofun nofun).unsupportedOpcode,
    atEnd_of_pcOutOfBounds hs ho⟩

/-! ## The outcome's form -/

theorem Instr.dest?_of_isStore {i : Instr} (h : i.isStore = true) : i.dest? = none := by
  cases i with
  | sb | sh | sw => rfl
  | _ => cases h

/-- An effect that fits an instruction writes a register or memory, not both (R126). -/
theorem EffectFits.memWrite_or_regWrite {i : Instr} {e : Effect} (fits : EffectFits i s e) :
    e.memWrite = none ∨ e.regWrite = none := by
  cases hm : e.memWrite with
  | none => exact .inl rfl
  | some w =>
    have is_store : i.isStore = true := by rw [← fits.store, hm]; rfl
    exact .inr (Option.map_eq_none_iff.mp (fits.register.trans (Instr.dest?_of_isStore is_store)))

theorem wellFormed_successOutcome {i : Instr} {e : Effect} (fits : EffectFits i s e) (after : State) :
    (successOutcome e after).wellFormed :=
  .inl ⟨rfl, rfl, rfl, fits.memWrite_or_regWrite.imp (fun h => by rw [successOutcome, h]; rfl)
    (fun h => by rw [successOutcome, h]; rfl)⟩

theorem wellFormed_errorOutcome {e : ExecutionError} (raised : Raised s e) (index : Nat) :
    (errorOutcome e index).wellFormed :=
  .inr ⟨rfl, by cases raised <;> nofun, by cases raised <;> nofun, rfl, rfl, rfl⟩

/-- Settles O38: the end of the program, the error reset and a commit each record a well-formed outcome with their pc. -/
theorem everyStepReportsAnOutcome : Obligations.EveryStepReportsAnOutcome := by
  intro s t hs
  rcases step_next_cases hs with ⟨_, rfl⟩ | ⟨e, raised, rfl⟩ | ⟨_, _, e, _, _, fits, rfl⟩
  · exact ⟨_, rfl, .inr ⟨rfl, nofun, nofun, rfl, rfl, rfl⟩, rfl⟩
  · exact ⟨_, rfl, wellFormed_errorOutcome raised _, rfl⟩
  · exact ⟨_, rfl, wellFormed_successOutcome fits _, rfl⟩

/-- Settles O39: the outcome of a commit reports the effect's writes, which are those of the instruction. -/
theorem successReportsTheChange : Obligations.SuccessReportsTheChange := by
  intro s t o hs ho success
  obtain ⟨i, e, runs, fits, rfl⟩ := step_succeeded hs (by rw [runEnded_of_lastOutcome ho, success]; rfl)
  cases ho
  refine ⟨i, runs, ?register, ?memory⟩
  case register => rw [← fits.register, Option.map_map]; rfl
  case memory => exact Option.isSome_map.trans fits.store

/-! ## What a step changes -/

theorem keepsMachine_of_step (hs : step s = .next t) : KeepsMachine s t := by
  rcases step_next_cases hs with ⟨_, rfl⟩ | ⟨e, _, rfl⟩ | ⟨_, _, e, _, _, _, rfl⟩
  · exact ⟨rfl, rfl, rfl⟩
  · exact ⟨rfl, rfl, rfl⟩
  · exact ⟨commit_memWords e s, commit_program e s, commit_params e s⟩

/-- Settles O44: `LoadProgram` puts its words in place, fetch is the list lookup, and none of a step's next states has another
program. -/
theorem noStepWritesTheInstructionStream : Obligations.NoStepWritesTheInstructionStream := by
  refine ⟨fun words s t loaded => ?_, fun s i hpc => ?_, fun s t hs => keepsMachine_of_step hs⟩
  · obtain ⟨_, rfl⟩ := loadProgram_eq_next_iff.mp loaded
    rfl
  · rw [fetch, fetchIndex, hpc, Nat.mul_div_cancel_left i (by decide)]

/-- Settles O45: only the memory write of a commit changes a byte, and it is a store's, at the store's address and width, and
passed the check. -/
theorem onlyStoresChangeMemory : Obligations.OnlyStoresChangeMemory := by
  intro s t a hs changed
  rcases step_next_cases hs with ⟨_, rfl⟩ | ⟨e, _, rfl⟩ | ⟨word, i, e, hf, hd, fits, rfl⟩
  · exact absurd rfl changed
  · exact absurd rfl changed
  · rw [readByte_commit] at changed
    cases hm : e.memWrite with
    | none => rw [hm] at changed; exact absurd rfl changed
    | some w =>
      rw [hm] at changed
      have within : w.address.toNat ≤ a ∧ a < w.address.toNat + w.width.bytes := by
        by_contra outside
        exact changed (if_neg outside)
      obtain ⟨inBounds, _⟩ := (accessOk_iff s w.address w.width.bytes).mp (fits.access w hm)
      obtain ⟨rs1, rs2, imm, address, store⟩ := fits.target w hm
      rw [address] at within inBounds
      refine ⟨i, rs1, rs2, imm, w.width.bytes, ⟨word, hf, hd⟩, ?_, within.1, within.2, by omega⟩
      exact store.imp (.imp_right (congrArg _)) (.imp (.imp_right (congrArg _)) (.imp_right (congrArg _)))

/-- Settles O46: of a commit's registers only the written one can differ, and it is the instruction's rd. -/
theorem oneDestinationRegister : Obligations.OneDestinationRegister := by
  intro s t r hs hr changed
  obtain ⟨i, e, runs, fits, rfl⟩ := step_succeeded hs hr
  rw [readReg_commit] at changed
  cases hw : e.regWrite with
  | none => rw [hw] at changed; exact absurd rfl changed
  | some write =>
    rw [hw] at changed
    have not_zero : r ≠ 0 := by
      rintro rfl
      exact changed rfl
    have is_written : r = write.1 := by
      by_contra other
      exact changed ((if_neg not_zero).trans (if_neg other))
    exact ⟨not_zero, i, runs, by rw [← fits.register, hw, is_written]; rfl⟩

/-- Settles O49: the effect that was committed took the source SEQ of the PC multiplexer. -/
theorem sequentialAdvance : Obligations.SequentialAdvance := by
  intro s t i runs sequential hs hr
  obtain ⟨j, e, runs_j, fits, rfl⟩ := step_succeeded hs hr
  cases runs_unique runs runs_j
  rw [commit_pc, fits.sequential sequential, seqPc, BitVec.toNat_add]
  rfl

/-! ## When a step answers -/

theorem divOverflowPair_iff (a b : Word) : divOverflowPair a b = true ↔ OverflowPair a b := by
  simp [divOverflowPair, OverflowPair]

/-- Executing an instruction stops only on the overflow pair with DIV_OVERFLOW = fault (R162). -/
theorem exec_answers (i : Instr) (s : State) :
    (∃ t, exec i s = .next t) ∨
      ∃ rd rs1 rs2, (i = .div rd rs1 rs2 ∨ i = .rem rd rs1 rs2) ∧ OverflowPair (readReg s rs1) (readReg s rs2) ∧
        s.params.divOverflow = .fault ∧ exec i s = .fault (.divOverflowUnmodelled (fetchIndex s)) := by
  have answers := exec_cases i s
  generalize exec i s = answer at answers
  cases answers with
  | completes | dividesByZero | accessFails | misaligned => exact .inl ⟨_, rfl⟩
  | overflows rd rs1 rs2 hi pair fault => exact .inr ⟨rd, rs1, rs2, hi, (divOverflowPair_iff _ _).mp pair, fault, rfl⟩

/-- Settles O40: fetch and decode always answer, and so does every instruction but for the overflow pair. -/
theorem stepAlwaysAnswers : Obligations.StepAlwaysAnswers := by
  intro s
  rcases step_cases s with ⟨_, hs⟩ | ⟨_, _, _, hs⟩ | ⟨w, i, hf, hd, hs⟩
  · exact ⟨fun _ => ⟨_, hs⟩, .inl ⟨_, hs⟩⟩
  · exact ⟨fun _ => ⟨_, hs⟩, .inl ⟨_, hs⟩⟩
  · rw [hs]
    rcases exec_answers i s with answers | ⟨rd, rs1, rs2, hi, pair, fault, stops⟩
    · exact ⟨fun _ => answers, .inl answers⟩
    · refine ⟨fun riscv => (nomatch riscv.symm.trans fault), .inr ⟨rd, rs1, rs2, ?_, pair, stops⟩⟩
      rcases hi with rfl | rfl
      · exact .inl ⟨w, hf, hd⟩
      · exact .inr ⟨w, hf, hd⟩

end

end Sys2Proof.Machine
end

section
/-! Single steps, host commands and runs: the step at the end of the program again (R253), `Reset()` (R280), the creation state
(R281), `LoadProgram` (R131), resizing (R52), and a run that has ended (R130). -/

namespace Sys2Proof.Machine
open Sys2Proof.Claims

section
variable {s t : State}

theorem step_of_decode_eq_instr {w : Word} {i : Instr} (hf : fetch s = some w) (hd : decode w = .instr i) :
    step s = exec i s := by
  rw [step, hf]
  simp only [hd]

theorem step_of_atEnd (atEnd : s.program.length ≤ s.pc.toNat / 4) : step s = .next (endOfProgram s) :=
  step_of_fetch_eq_none ((fetch_eq_none_iff s).mpr atEnd)

theorem endedNormally_endOfProgram (s : State) : endedNormally (endOfProgram s) := ⟨_, rfl, rfl, rfl⟩

/-- Settles O29: fetch finds the word and decode the instruction, and nothing else stands around `exec`. -/
theorem stepRunsTheDecodedInstruction : Obligations.StepRunsTheDecodedInstruction :=
  fun _ _ _ hf hd => step_of_decode_eq_instr hf hd

/-- Settles O31: the report keeps pc and program, so the next fetch finds the end again and reports the same. -/
theorem programEndIsIdempotent : Obligations.ProgramEndIsIdempotent := by
  intro s t atEnd hs
  cases (step_of_atEnd atEnd).symm.trans hs
  exact ⟨endedNormally_endOfProgram s, runEnded_endOfProgram, step_of_atEnd atEnd⟩

/-! ## Host commands -/

theorem readReg_resetEngine (s : State) (r : RegIdx) : readReg (resetEngine s) r = 0 := readReg_cleared s r

/-- Settles O50: the registers and the pc are those of the error reset, and the memory is empty. -/
theorem resetClearsRegistersAndMemory : Obligations.ResetClearsRegistersAndMemory := fun s =>
  ⟨resetEngine s, rfl, readReg_resetEngine s, rfl, Memory.readByte_nil, ⟨rfl, rfl, rfl⟩, rfl, fetch_of_pc_zero rfl⟩

/-- Settles O51: the creation state has the registers of the error reset, and its program is empty. -/
theorem creationState : Obligations.CreationState :=
  ⟨readReg_cleared State.reset, rfl, Memory.readByte_nil, rfl, rfl,
    _, step_of_atEnd (Nat.zero_le _), endedNormally_endOfProgram State.reset⟩

/-- Settles O52: the two branches of the length test. -/
theorem loadProgramChangesOnlyTheProgram : Obligations.LoadProgramChangesOnlyTheProgram := by
  refine fun words s => ⟨fun fits => ?_, fun too_long => if_neg (Nat.not_le.mpr too_long)⟩
  exact ⟨{ s with program := words }, if_pos fits, rfl, rfl, rfl, rfl, rfl, rfl⟩

theorem readByte_resizeMemory (s : State) (n a : Nat) :
    Memory.readByte (resizeMemory n s).mem a = if a < 4 * n then Memory.readByte s.mem a else 0 :=
  Memory.readByte_filter_lt s.mem (4 * n) a

/-- Settles O53: the new memory is the old one cut off at the new size, and the old one reads 0 beyond its own. -/
theorem resizeKeepsContentAndZeroFills : Obligations.ResizeKeepsContentAndZeroFills := by
  refine fun n s inv => ⟨resizeMemory n s, rfl, rfl, fun a below => ?_, fun a beyond => ?_, rfl, rfl, rfl, rfl⟩
  · rw [readByte_resizeMemory, if_pos (by omega)]
  · rw [readByte_resizeMemory]
    split
    · have beyond_old : memBytes s ≤ a := by rw [memBytes]; omega
      exact Memory.readByte_of_inBounds inv.memoryInBounds beyond_old
    · rfl

/-! ## Runs -/

theorem runSteps_succ_of_ended (k : Nat) (hs : step s = .next t) (ended : runEnded t = true) :
    runSteps (k + 1) s = .next t := by
  rw [runSteps, hs]
  exact if_pos ended

theorem runSteps_succ_of_goesOn (k : Nat) (hs : step s = .next t) (goesOn : runEnded t = false) :
    runSteps (k + 1) s = runSteps k t := by
  rw [runSteps, hs]
  simp only [goesOn, Bool.false_eq_true, if_false]

/-- A run that answers took a first step, after which it had ended or went on. -/
theorem runSteps_succ_cases {k : Nat} (h : runSteps (k + 1) s = .next t) :
    ∃ u, step s = .next u ∧ ((runEnded u = true ∧ u = t) ∨ (runEnded u = false ∧ runSteps k u = .next t)) := by
  cases hs : step s with
  | next u =>
    refine ⟨u, rfl, ?_⟩
    cases hu : runEnded u with
    | true => exact .inl ⟨rfl, by cases (runSteps_succ_of_ended k hs hu).symm.trans h; rfl⟩
    | false => exact .inr ⟨rfl, (runSteps_succ_of_goesOn k hs hu).symm.trans h⟩
  | fault f => rw [runSteps, hs] at h; cases h
  | refused r => rw [runSteps, hs] at h; cases h

/-- Settles O55, by induction on the steps the run was allowed: it ended at its first step, or the rest of it did. -/
theorem runStopsAtFirstFailure : Obligations.RunStopsAtFirstFailure := by
  intro k j s t start h ended
  induction k generalizing s with
  | zero =>
    cases h
    cases start.symm.trans ended
  | succ k ih =>
    rw [Nat.succ_add]
    obtain ⟨u, hs, ⟨hu, rfl⟩ | ⟨hu, rest⟩⟩ := runSteps_succ_cases h
    · exact runSteps_succ_of_ended (k + j) hs hu
    · exact (runSteps_succ_of_goesOn (k + j) hs hu).trans (ih u hu rest)

end

end Sys2Proof.Machine
end

section
/-! What an instruction reads: no instruction reads the recorded outcome, and only a load reads what memory holds (R29, R43). Two
states that differ in nothing else get the same response from an instruction, and performing a response reads neither. -/

namespace Sys2Proof.Machine
open Sys2Proof.Claims

/-- What a step decides to do in a state. -/
inductive Response where
  | endOfProgram
  | effect (e : Effect)
  | error (e : ExecutionError)
  | overflow

def Response.perform : Response → State → Host.Outcome State Fault Refusal
  | .endOfProgram, s => .next (Machine.endOfProgram s)
  | .effect e, s => complete e s
  | .error e, s => raise e s
  | .overflow, s => .fault (.divOverflowUnmodelled (fetchIndex s))

/-- The state with another memory content and another recorded outcome. -/
def State.withMemOutcome (s : State) (m : Memory) (o : Option StepOutcome) : State := { s with mem := m, lastOutcome := o }

/-- `f` performs one and the same response in both states. -/
def SameResponse (f : State → Host.Outcome State Fault Refusal) (s t : State) : Prop :=
  ∃ r : Response, f s = r.perform s ∧ f t = r.perform t

section
variable {s t : State} {m : Memory} {o : Option StepOutcome}

theorem SameResponse.ite {f g : State → Host.Outcome State Fault Refusal} {c : State → Prop} [∀ s, Decidable (c s)]
    (hc : c s ↔ c t) (hf : SameResponse f s t) (hg : SameResponse g s t) :
    SameResponse (fun s => if c s then f s else g s) s t := by
  by_cases h : c s
  · simpa only [SameResponse, if_pos h, if_pos (hc.mp h)] using hf
  · simpa only [SameResponse, if_neg h, if_neg (mt hc.mpr h)] using hg

theorem sameResponse_branchWith {c : State → Bool} (hc : c s = c (s.withMemOutcome m o)) (imm : BitVec 13) :
    SameResponse (fun s => branchWith (c s) imm s) s (s.withMemOutcome m o) :=
  .ite Iff.rfl ⟨.effect _, rfl, by dsimp only; rw [← hc]; rfl⟩ ⟨.error _, rfl, rfl⟩

theorem sameResponse_loadWith (w : AccessWidth) (ext : AccessWidth → Word → Word) (rd rs1 : RegIdx) (imm : BitVec 12) :
    SameResponse (loadWith w ext rd rs1 imm) s (s.withMemOutcome s.mem o) :=
  .ite Iff.rfl ⟨.effect _, rfl, rfl⟩ ⟨.error _, rfl, rfl⟩

theorem sameResponse_storeWith (w : AccessWidth) (rs1 rs2 : RegIdx) (imm : BitVec 12) :
    SameResponse (storeWith w rs1 rs2 imm) s (s.withMemOutcome m o) :=
  .ite Iff.rfl ⟨.effect _, rfl, rfl⟩ ⟨.error _, rfl, rfl⟩

theorem sameResponse_unlessDivisorZero {f : State → Host.Outcome State Fault Refusal} (rs2 : RegIdx)
    (hf : SameResponse f s (s.withMemOutcome m o)) :
    SameResponse (fun s => unlessDivisorZero rs2 s (f s)) s (s.withMemOutcome m o) :=
  .ite Iff.rfl ⟨.error _, rfl, rfl⟩ hf

theorem divOverflow_of_riscv (rd : RegIdx) (v : Word) (h : s.params.divOverflow = .riscv) :
    divOverflow rd v s = completeReg rd v s := by
  rw [divOverflow, h]

theorem divOverflow_of_fault (rd : RegIdx) (v : Word) (h : s.params.divOverflow = .fault) :
    divOverflow rd v s = .fault (.divOverflowUnmodelled (fetchIndex s)) := by
  rw [divOverflow, h]

theorem sameResponse_divOverflow (rd : RegIdx) (v : Word) : SameResponse (divOverflow rd v) s (s.withMemOutcome m o) := by
  cases hp : s.params.divOverflow with
  | riscv => exact ⟨.effect _, divOverflow_of_riscv rd v hp, divOverflow_of_riscv rd v hp⟩
  | fault => exact ⟨.overflow, divOverflow_of_fault rd v hp, divOverflow_of_fault rd v hp⟩

/-- An instruction's response depends on no recorded outcome, and on what memory holds only if it is a load. -/
theorem sameResponse_exec (i : Instr) (hm : i.isLoad = true → m = s.mem) :
    SameResponse (exec i) s (s.withMemOutcome m o) := by
  cases i with
  | lb | lh | lw | lbu | lhu => cases hm rfl; exact sameResponse_loadWith ..
  | sb | sh | sw => exact sameResponse_storeWith ..
  | beq | bne | blt | bge | bltu | bgeu => exact sameResponse_branchWith rfl _
  | jal | jalr => exact .ite Iff.rfl ⟨.effect _, rfl, rfl⟩ ⟨.error _, rfl, rfl⟩
  | div | rem =>
    exact sameResponse_unlessDivisorZero _ (.ite Iff.rfl (sameResponse_divOverflow ..) ⟨.effect _, rfl, rfl⟩)
  | divu | remu => exact sameResponse_unlessDivisorZero _ ⟨.effect _, rfl, rfl⟩
  | _ => exact ⟨.effect _, rfl, rfl⟩

theorem sameResponse_step (hm : ∀ i, Runs s i → i.isLoad = true → m = s.mem) :
    SameResponse step s (s.withMemOutcome m o) := by
  rcases step_cases s with ⟨hf, hs⟩ | ⟨w, hf, hd, hs⟩ | ⟨w, i, hf, hd, hs⟩
  · exact ⟨.endOfProgram, hs, step_of_fetch_eq_none hf⟩
  · exact ⟨.error .unsupportedOpcode, hs, step_of_decode_eq_unsupported hf hd⟩
  · obtain ⟨r, hr, hr'⟩ : SameResponse (exec i) s (s.withMemOutcome m o) := sameResponse_exec i (hm i ⟨w, hf, hd⟩)
    exact ⟨r, hs.trans hr, (step_of_decode_eq_instr (s := s.withMemOutcome m o) hf hd).trans hr'⟩

/-! ## Performing a response in the two states -/

theorem writeReg_eq_setRegs (s : State) (i : RegIdx) (v : Word) :
    writeReg s i v = s.setRegs (if i = 0 then s.regs else s.regs.set i.toNat v i.isLt) := by
  unfold writeReg
  split <;> rfl

/-- The two commits differ in memory only. -/
theorem commit_withMemOutcome (e : Effect) :
    commit e (s.withMemOutcome m o) = (commit e s).setMem (applyMemWrite (s.setMem m) e.memWrite).mem := by
  obtain ⟨regWrite, memWrite, nextPc⟩ := e
  cases regWrite with
  | none => cases memWrite <;> rfl
  | some write => cases memWrite <;> simp only [commit, applyEffect, applyRegWrite, writeReg_eq_setRegs] <;> rfl

theorem perform_withMemOutcome {r : Response} (h : r.perform s = .next t) :
    ∃ m', r.perform (s.withMemOutcome m o) = .next (t.setMem m') := by
  cases r with
  | endOfProgram | error => cases h; exact ⟨m, rfl⟩
  | effect e => cases h; exact ⟨_, congrArg Host.Outcome.next (commit_withMemOutcome e)⟩
  | overflow => cases h

theorem perform_withOutcome (r : Response) : r.perform (s.withMemOutcome s.mem o) = r.perform s := by
  cases r with
  | endOfProgram | error | overflow => rfl
  | effect e =>
    have same_memory : (commit e s).setMem (applyMemWrite s e.memWrite).mem = commit e s := by rw [← commit_mem]; rfl
    exact congrArg Host.Outcome.next ((commit_withMemOutcome e).trans same_memory)

/-- Settles O47: the response is the same and the two states perform it alike. -/
theorem stepIgnoresTheLastOutcome : Obligations.StepIgnoresTheLastOutcome := by
  rintro ⟨regs, pc, mem, memWords, program, params, o⟩ ⟨_, _, _, _, _, _, o'⟩ ⟨rfl, rfl, rfl, rfl, rfl, rfl⟩
  obtain ⟨r, hs, ht⟩ : SameResponse step ⟨regs, pc, mem, memWords, program, params, o⟩ _ :=
    sameResponse_step (o := o') fun _ _ _ => rfl
  exact hs.trans (ht.trans (perform_withOutcome r)).symm

/-- Settles O48: the response is the same, and performed with another memory it gives a state that differs in memory only. -/
theorem onlyLoadsReadMemory : Obligations.OnlyLoadsReadMemory := by
  intro s m t noLoad hs
  obtain ⟨r, hr, hr'⟩ : SameResponse step s (s.setMem m) :=
    sameResponse_step (o := s.lastOutcome) fun i runs load => nomatch (noLoad i runs).symm.trans load
  obtain ⟨m', hm'⟩ := perform_withMemOutcome (m := m) (o := s.lastOutcome) (hr.symm.trans hs)
  exact ⟨t.setMem m', hr'.trans hm', rfl, rfl, rfl⟩

end

end Sys2Proof.Machine
end

section
/-! The results of the arithmetic instructions in integers (R141-R151, R163-R171, R181-R189). -/

namespace Sys2Proof.Machine
open Sys2Proof.Claims

/-! ## Sums and displacements -/

theorem toNat_sub_eq_emod (a b : Word) : ((a - b).toNat : Int) = ((a.toNat : Int) - (b.toNat : Int)) % 2 ^ 32 := by
  have ha := a.isLt
  have hb := b.isLt
  rw [BitVec.toNat_sub]
  omega

/-- A sign-extended displacement added modulo 2^32. -/
theorem displaced_add_signExtend {n : Nat} (hn : n ≤ 32) (a : Word) (d : BitVec n) :
    Displaced a d.toInt (a + d.signExtend 32) := toNat_add_signExtend hn a d

/-- The displaced value is determined. -/
theorem displaced_unique {a r r' : Word} {d : Int} (h : Displaced a d r) (h' : Displaced a d r') : r = r' :=
  BitVec.eq_of_toNat_eq (Int.ofNat_inj.mp (h.trans h'.symm))

/-- Settles O16: the displacement is sign-extended and added. -/
theorem effectiveAddressWraps : Obligations.EffectiveAddressWraps := fun s rs1 imm =>
  displaced_add_signExtend (by decide) (readReg s rs1) imm

/-! ## Shifts -/

theorem toNat_regShamt (b : Word) : (regShamt b).toNat = b.toNat % 32 := by
  rw [regShamt, BitVec.extractLsb'_toNat, Nat.shiftRight_zero]

theorem toNat_shiftLeft (a : Word) (n : BitVec 5) : (shiftLeft a n).toNat = a.toNat * 2 ^ n.toNat % 2 ^ 32 := by
  rw [shiftLeft, BitVec.toNat_shiftLeft, Nat.shiftLeft_eq]

theorem toNat_shiftRightLogical (a : Word) (n : BitVec 5) : (shiftRightLogical a n).toNat = a.toNat / 2 ^ n.toNat := by
  rw [shiftRightLogical, BitVec.toNat_ushiftRight, Nat.shiftRight_eq_div_pow]

theorem toInt_shiftRightArith (a : Word) (n : BitVec 5) : (shiftRightArith a n).toInt = a.toInt / 2 ^ n.toNat := by
  rw [shiftRightArith, BitVec.toInt_sshiftRight, Int.shiftRight_eq_div_pow]
  rfl

/-! ## Comparisons and immediates -/

theorem condWord_condLtSigned (a b : Word) : condWord (condLtSigned a b) = if a.toInt < b.toInt then 1 else 0 := by
  simp only [condWord, condLtSigned, decide_eq_true_eq]

theorem condWord_condLtUnsigned (a b : Word) : condWord (condLtUnsigned a b) = if a.toNat < b.toNat then 1 else 0 := by
  simp only [condWord, condLtUnsigned, decide_eq_true_eq]

/-- The sign-extended immediate read unsigned (R183). -/
theorem toNat_imm12 (imm : BitVec 12) : ((imm12 imm).toNat : Int) = imm.toInt % 2 ^ 32 := by
  rw [toNat_eq_toInt_emod, toInt_imm12]

/-- Beyond the immediate's own bits stand copies of its bit 11. -/
theorem getLsbD_imm12 (imm : BitVec 12) {k : Nat} (hk : k < 32) : (imm12 imm).getLsbD k = imm.getLsbD (min k 11) := by
  rw [imm12, BitVec.getLsbD_signExtend, decide_eq_true hk, Bool.true_and]
  split
  · rw [Nat.min_eq_left (by omega)]
  · rw [Nat.min_eq_right (by omega), BitVec.msb_eq_getLsbD_last]

theorem toNat_immU (imm : BitVec 20) : (immU imm).toNat = imm.toNat * 2 ^ 12 := by
  have := imm.isLt
  rw [immU, BitVec.toNat_shiftLeft, BitVec.toNat_setWidth, Nat.shiftLeft_eq]
  omega

/-! ## Products -/

theorem toNat_productLow (p : Int) : ((productLow p).toNat : Int) = p % 2 ^ 32 := by
  rw [productLow, BitVec.toNat_ofInt]
  omega

/-- Bits 63..32 of the product are its floor quotient by 2^32, as a word. -/
theorem productHigh_eq_ofInt (p : Int) : productHigh p = BitVec.ofInt 32 (p / 2 ^ 32) := by
  apply BitVec.eq_of_toNat_eq
  rw [productHigh, BitVec.extractLsb'_toNat, BitVec.toNat_ofInt, BitVec.toNat_ofInt, Nat.shiftRight_eq_div_pow]
  omega

theorem toInt_productHigh {p : Int} (low : -2 ^ 63 ≤ p) (high : p < 2 ^ 63) : (productHigh p).toInt = p / 2 ^ 32 := by
  rw [productHigh_eq_ofInt]
  exact BitVec.toInt_ofInt_eq_self (by decide) (by omega) (by omega)

theorem toNat_productHigh {p : Nat} (high : p < 2 ^ 64) : (productHigh p).toNat = p / 2 ^ 32 := by
  rw [productHigh_eq_ofInt, BitVec.toNat_ofInt]
  omega

theorem toInt_productHigh_signed (a b : Word) : (productHigh (a.toInt * b.toInt)).toInt = a.toInt * b.toInt / 2 ^ 32 := by
  have low : -2 ^ 62 ≤ a.toInt * b.toInt := BitVec.le_toInt_mul_toInt
  have high : a.toInt * b.toInt ≤ 2 ^ 62 := BitVec.toInt_mul_toInt_le
  exact toInt_productHigh (by omega) (by omega)

theorem toInt_productHigh_mixed (a b : Word) :
    (productHigh (a.toInt * (b.toNat : Int))).toInt = a.toInt * (b.toNat : Int) / 2 ^ 32 := by
  have a_low : -2 ^ 31 ≤ a.toInt := BitVec.le_toInt a
  have a_high : a.toInt < 2 ^ 31 := BitVec.toInt_lt
  have b_high := b.isLt
  exact toInt_productHigh (by nlinarith) (by nlinarith)

theorem toNat_productHigh_unsigned (a b : Word) :
    (productHigh ((a.toNat : Int) * (b.toNat : Int))).toNat = a.toNat * b.toNat / 2 ^ 32 := by
  have high : a.toNat * b.toNat < 2 ^ 32 * 2 ^ 32 := Nat.mul_lt_mul'' a.isLt b.isLt
  rw [← Int.natCast_mul]
  exact toNat_productHigh (by omega)

/-! ## Quotients and remainders -/

theorem divSigned_eq_sdiv (a b : Word) : divSigned a b = a.sdiv b := by
  rw [← BitVec.ofInt_toInt (x := a.sdiv b), BitVec.toInt_sdiv, divSigned, signedQuotient]
  exact BitVec.eq_of_toInt_eq (by simp only [BitVec.toInt_ofInt, Int.bmod_bmod])

/-- The quotient fits a word but for the overflow pair (R162, R167). -/
theorem toInt_divSigned {a b : Word} (h : ¬ OverflowPair a b) : (divSigned a b).toInt = a.toInt.tdiv b.toInt := by
  rw [divSigned_eq_sdiv]
  exact BitVec.toInt_sdiv_of_ne_or_ne a b (not_and_or.mp h)

theorem remSigned_eq_srem (a b : Word) : remSigned a b = a.srem b := by
  rw [← BitVec.ofInt_toInt (x := a.srem b), BitVec.toInt_srem, Int.tmod_def, Int.mul_comm b.toInt]
  rfl

theorem toInt_remSigned (a b : Word) : (remSigned a b).toInt = a.toInt.tmod b.toInt := by
  rw [remSigned_eq_srem, BitVec.toInt_srem]

theorem toNat_divUnsigned (a b : Word) : (divUnsigned a b).toNat = a.toNat / b.toNat :=
  (BitVec.toNat_ofNat _ _).trans <| Nat.mod_eq_of_lt (Nat.lt_of_le_of_lt (Nat.div_le_self _ _) a.isLt)

theorem toNat_remUnsigned (a b : Word) : (remUnsigned a b).toNat = a.toNat % b.toNat :=
  (BitVec.toNat_ofNat _ _).trans <| Nat.mod_eq_of_lt (Nat.lt_of_le_of_lt (Nat.mod_le _ _) a.isLt)

/-! ## The displacements of the B- and J-types (R81, R83) -/

theorem toInt_bit (b : BitVec 1) : b.toInt = -(b.toNat : Int) := by
  decide +revert

/-- The upper part of a concatenation carries the sign. -/
theorem toInt_append_of_pos {n m : Nat} {x : BitVec n} {y : BitVec m} (hn : (n == 0) = false) :
    (x ++ y).toInt = 2 ^ m * x.toInt + y.toNat := by
  rw [BitVec.toInt_append, hn]
  rfl

theorem toInt_immBField (w : Word) :
    (immBField w).toInt =
      -4096 * (w.extractLsb' 31 1).toNat + 2048 * (w.extractLsb' 7 1).toNat + 32 * (w.extractLsb' 25 6).toNat +
        2 * (w.extractLsb' 8 4).toNat := by
  rw [immBField]
  iterate 4 rw [toInt_append_of_pos (by decide)]
  rw [toInt_bit, BitVec.toNat_ofNat]
  omega

theorem toInt_immJField (w : Word) :
    (immJField w).toInt =
      -1048576 * (w.extractLsb' 31 1).toNat + 4096 * (w.extractLsb' 12 8).toNat + 2048 * (w.extractLsb' 20 1).toNat +
        2 * (w.extractLsb' 21 10).toNat := by
  rw [immJField]
  iterate 4 rw [toInt_append_of_pos (by decide)]
  rw [toInt_bit, BitVec.toNat_ofNat]
  omega

/-- Settles O25: sign extension keeps the sums of the pieces; each piece is below a power of 2. -/
theorem displacementsOfTypesBJ : Obligations.DisplacementsOfTypesBJ := by
  intro w
  have immB_eq : (immB (immBField w)).toInt = _ :=
    (BitVec.toInt_signExtend_of_le (by decide)).trans (toInt_immBField w)
  have immJ_eq : (immJ (immJField w)).toInt = _ :=
    (BitVec.toInt_signExtend_of_le (by decide)).trans (toInt_immJField w)
  have sign := (w.extractLsb' 31 1).isLt
  have b11 := (w.extractLsb' 7 1).isLt
  have b5 := (w.extractLsb' 25 6).isLt
  have b1 := (w.extractLsb' 8 4).isLt
  have j12 := (w.extractLsb' 12 8).isLt
  have j11 := (w.extractLsb' 20 1).isLt
  have j1 := (w.extractLsb' 21 10).isLt
  exact ⟨⟨immB_eq, by omega, by omega, by omega⟩, ⟨immJ_eq, by omega, by omega, by omega⟩⟩

end Sys2Proof.Machine
end

section
/-! The rules of the arithmetic instructions (R142-R151, R163-R171, R181-R189, R240, R241): a rule follows from what the decoder
makes of the pattern's fields, from the value that the instruction hands to `completeReg`, and from what that value is in
integers. -/

namespace Sys2Proof.Machine
open Sys2Proof.Claims

/-! ## What an effect on one register does -/

theorem keepsMachine_commit (e : Effect) (s : State) : KeepsMachine s (commit e s) :=
  ⟨commit_memWords e s, commit_program e s, commit_params e s⟩

theorem writesReg_commit (s : State) (rd : RegIdx) (v pc' : Word) :
    WritesReg s (commit { regWrite := some (rd, v), memWrite := none, nextPc := pc' } s) rd v pc' where
  destination := by
    rw [readReg_commit]
    exact if_congr Iff.rfl rfl (if_pos rfl)
  others r hr := by
    rw [readReg_commit]
    by_cases hz : r = 0
    · rw [hz]
      rfl
    · exact (if_neg hz).trans (if_neg hr)
  pc := rfl
  memory := readByte_commit _ s
  machine := keepsMachine_commit _ s

/-- The instruction completes with a value that meets `P`, written to rd, and the pc goes on to the next word. -/
def CompletesWith (answer : Host.Outcome State Fault Refusal) (s : State) (rd : RegIdx) (P : Word → Prop) : Prop :=
  ∃ t v, answer = .next t ∧ WritesReg s t rd v (s.pc + 4) ∧ P v

theorem completesWith_completeReg {s : State} {rd : RegIdx} {v : Word} {P : Word → Prop} (h : P v) :
    CompletesWith (completeReg rd v s) s rd P :=
  ⟨_, v, rfl, writesReg_commit s rd v (s.pc + 4), h⟩

/-! ## The rules of a format from the instruction's value -/

section Rules
variable {pattern : Word}

/-- What the decoder makes of an OP pattern, whatever the register fields are. -/
structure OpPattern (mk : RegIdx → RegIdx → RegIdx → Instr) (pattern : Word) : Prop where
  opcode : opcodeField pattern = opcodeOp
  decodes : ∀ rd rs1 rs2, decodeOp (funct7Field pattern) (funct3Field pattern) rd rs1 rs2 = .instr (mk rd rs1 rs2)

theorem OpPattern.decode {mk : RegIdx → RegIdx → RegIdx → Instr} (h : OpPattern mk pattern) (w : Word)
    (hw : w &&& 0xFE00707F = pattern) :
    decode w = .instr (mk (w.extractLsb' 7 5) (w.extractLsb' 15 5) (w.extractLsb' 20 5)) :=
  (decode_of_opPattern hw h.opcode).trans (h.decodes _ _ _)

theorem registerRule {mk : RegIdx → RegIdx → RegIdx → Instr} {result : Word → Word → Word → Prop}
    (value : Word → Word → Word) (hd : OpPattern mk pattern)
    (he : ∀ rd rs1 rs2 s, exec (mk rd rs1 rs2) s = completeReg rd (value (readReg s rs1) (readReg s rs2)) s)
    (hv : ∀ a b, result a b (value a b)) : RegisterRule mk pattern result :=
  ⟨hd.decode, fun rd rs1 rs2 s => he rd rs1 rs2 s ▸ completesWith_completeReg (hv _ _)⟩

theorem divideRule {mk : RegIdx → RegIdx → RegIdx → Instr} {regular : Word → Word → Prop}
    {result : Word → Word → Word → Prop} (value : Word → Word → Word) (hd : OpPattern mk pattern)
    (he : ∀ rd rs1 rs2 s, readReg s rs2 ≠ 0 → regular (readReg s rs1) (readReg s rs2) →
      exec (mk rd rs1 rs2) s = completeReg rd (value (readReg s rs1) (readReg s rs2)) s)
    (hv : ∀ a b, regular a b → result a b (value a b)) : DivideRule mk pattern regular result :=
  ⟨hd.decode, fun rd rs1 rs2 s nonzero reg =>
    he rd rs1 rs2 s nonzero reg ▸ completesWith_completeReg (hv _ _ reg)⟩

/-- What the decoder makes of an OP-IMM pattern, whatever the other fields are; only shifts depend on funct7. -/
structure OpImmPattern (mk : RegIdx → RegIdx → BitVec 12 → Instr) (pattern : Word) : Prop where
  opcode : opcodeField pattern = opcodeOpImm
  decodes : ∀ f7 rd rs1 shamt imm, decodeOpImm f7 (funct3Field pattern) rd rs1 shamt imm = .instr (mk rd rs1 imm)

theorem immediateRule {mk : RegIdx → RegIdx → BitVec 12 → Instr} {result : Word → BitVec 12 → Word → Prop}
    (value : Word → BitVec 12 → Word) (hd : OpImmPattern mk pattern)
    (he : ∀ rd rs1 imm s, exec (mk rd rs1 imm) s = completeReg rd (value (readReg s rs1) imm) s)
    (hv : ∀ a imm, result a imm (value a imm)) : ImmediateRule mk pattern result :=
  ⟨fun _ hw => (decode_of_opImmPattern hw hd.opcode).trans (hd.decodes _ _ _ _ _),
    fun rd rs1 imm s => he rd rs1 imm s ▸ completesWith_completeReg (hv _ _)⟩

/-- What the decoder makes of a shift pattern, whatever the register fields and the shift amount are. -/
structure ShiftPattern (mk : RegIdx → RegIdx → BitVec 5 → Instr) (pattern : Word) : Prop where
  opcode : opcodeField pattern = opcodeOpImm
  decodes : ∀ rd rs1 shamt imm,
    decodeOpImm (funct7Field pattern) (funct3Field pattern) rd rs1 shamt imm = .instr (mk rd rs1 shamt)

theorem shiftRule {mk : RegIdx → RegIdx → BitVec 5 → Instr} {result : Word → Nat → Word → Prop}
    (value : Word → BitVec 5 → Word) (hd : ShiftPattern mk pattern)
    (he : ∀ rd rs1 shamt s, exec (mk rd rs1 shamt) s = completeReg rd (value (readReg s rs1) shamt) s)
    (hv : ∀ a shamt, result a shamt.toNat (value a shamt)) : ShiftRule mk pattern result :=
  ⟨fun _ hw => (decode_of_shiftPattern hw hd.opcode).trans (hd.decodes _ _ _ _),
    fun rd rs1 shamt s => he rd rs1 shamt s ▸ completesWith_completeReg (hv _ _)⟩

end Rules

/-! ## Register-register instructions -/

/-- Settles O1: the sum and the difference of words in integers. -/
theorem addAndSubWrap : Obligations.AddAndSubWrap :=
  ⟨registerRule (· + ·) ⟨rfl, fun _ _ _ => rfl⟩ (fun _ _ _ _ => rfl) BitVec.toNat_add,
    registerRule (· - ·) ⟨rfl, fun _ _ _ => rfl⟩ (fun _ _ _ _ => rfl) toNat_sub_eq_emod⟩

/-- Settles O2: the amount is the low five bits of the operand, its value modulo 32. -/
theorem registerShiftsUseFiveBits : Obligations.RegisterShiftsUseFiveBits :=
  ⟨registerRule (fun a b => shiftLeft a (regShamt b)) ⟨rfl, fun _ _ _ => rfl⟩ (fun _ _ _ _ => rfl)
      fun a b => toNat_regShamt b ▸ toNat_shiftLeft a (regShamt b),
    registerRule (fun a b => shiftRightLogical a (regShamt b)) ⟨rfl, fun _ _ _ => rfl⟩ (fun _ _ _ _ => rfl)
      fun a b => toNat_regShamt b ▸ toNat_shiftRightLogical a (regShamt b),
    registerRule (fun a b => shiftRightArith a (regShamt b)) ⟨rfl, fun _ _ _ => rfl⟩ (fun _ _ _ _ => rfl)
      fun a b => toNat_regShamt b ▸ toInt_shiftRightArith a (regShamt b)⟩

/-- Settles O3: the comparison's truth value as a word. -/
theorem setLessThanSignedAndUnsigned : Obligations.SetLessThanSignedAndUnsigned :=
  ⟨registerRule (fun a b => condWord (condLtSigned a b)) ⟨rfl, fun _ _ _ => rfl⟩ (fun _ _ _ _ => rfl)
      condWord_condLtSigned,
    registerRule (fun a b => condWord (condLtUnsigned a b)) ⟨rfl, fun _ _ _ => rfl⟩ (fun _ _ _ _ => rfl)
      condWord_condLtUnsigned⟩

/-- Settles O4: the bits of the library's word operations. -/
theorem registerLogicIsBitwise : Obligations.RegisterLogicIsBitwise :=
  ⟨registerRule (· ^^^ ·) ⟨rfl, fun _ _ _ => rfl⟩ (fun _ _ _ _ => rfl) fun _ _ _ _ => BitVec.getLsbD_xor,
    registerRule (· ||| ·) ⟨rfl, fun _ _ _ => rfl⟩ (fun _ _ _ _ => rfl) fun _ _ _ _ => BitVec.getLsbD_or,
    registerRule (· &&& ·) ⟨rfl, fun _ _ _ => rfl⟩ (fun _ _ _ _ => rfl) fun _ _ _ _ => BitVec.getLsbD_and⟩

/-! ## The M extension -/

/-- Settles O5: the halves of the exact product, whose size is bounded for the high ones. -/
theorem productsAreExact : Obligations.ProductsAreExact :=
  ⟨registerRule (fun a b => productLow (a.toInt * b.toInt)) ⟨rfl, fun _ _ _ => rfl⟩ (fun _ _ _ _ => rfl)
      fun _ _ => toNat_productLow _,
    registerRule (fun a b => productHigh (a.toInt * b.toInt)) ⟨rfl, fun _ _ _ => rfl⟩ (fun _ _ _ _ => rfl)
      toInt_productHigh_signed,
    registerRule (fun a b => productHigh (a.toInt * b.toNat)) ⟨rfl, fun _ _ _ => rfl⟩ (fun _ _ _ _ => rfl)
      toInt_productHigh_mixed,
    registerRule (fun a b => productHigh (a.toNat * b.toNat)) ⟨rfl, fun _ _ _ => rfl⟩ (fun _ _ _ _ => rfl)
      toNat_productHigh_unsigned⟩

section Divide
variable {s : State} {rd rs1 rs2 : RegIdx}

theorem exec_div_of_regular (nonzero : readReg s rs2 ≠ 0) (regular : ¬ OverflowPair (readReg s rs1) (readReg s rs2)) :
    exec (.div rd rs1 rs2) s = completeReg rd (divSigned (readReg s rs1) (readReg s rs2)) s :=
  (if_neg nonzero).trans (if_neg (mt (divOverflowPair_iff _ _).mp regular))

theorem exec_rem_of_regular (nonzero : readReg s rs2 ≠ 0) (regular : ¬ OverflowPair (readReg s rs1) (readReg s rs2)) :
    exec (.rem rd rs1 rs2) s = completeReg rd (remSigned (readReg s rs1) (readReg s rs2)) s :=
  (if_neg nonzero).trans (if_neg (mt (divOverflowPair_iff _ _).mp regular))

theorem exec_divu_of_nonzero (nonzero : readReg s rs2 ≠ 0) :
    exec (.divu rd rs1 rs2) s = completeReg rd (divUnsigned (readReg s rs1) (readReg s rs2)) s := if_neg nonzero

theorem exec_remu_of_nonzero (nonzero : readReg s rs2 ≠ 0) :
    exec (.remu rd rs1 rs2) s = completeReg rd (remUnsigned (readReg s rs1) (readReg s rs2)) s := if_neg nonzero

theorem exec_div_of_overflowPair (pair : OverflowPair (readReg s rs1) (readReg s rs2)) :
    exec (.div rd rs1 rs2) s = divOverflow rd 0x80000000 s := by
  have nonzero : readReg s rs2 ≠ 0 := pair.2 ▸ by decide
  exact (if_neg nonzero).trans (if_pos ((divOverflowPair_iff _ _).mpr pair))

theorem exec_rem_of_overflowPair (pair : OverflowPair (readReg s rs1) (readReg s rs2)) :
    exec (.rem rd rs1 rs2) s = divOverflow rd 0 s := by
  have nonzero : readReg s rs2 ≠ 0 := pair.2 ▸ by decide
  exact (if_neg nonzero).trans (if_pos ((divOverflowPair_iff _ _).mpr pair))

end Divide

/-- Settles O6: the quotient and the remainder of the integers, which fit a word. -/
theorem signedDivisionRoundsTowardZero : Obligations.SignedDivisionRoundsTowardZero :=
  ⟨divideRule divSigned ⟨rfl, fun _ _ _ => rfl⟩ (fun _ _ _ _ => exec_div_of_regular) fun _ _ => toInt_divSigned,
    divideRule remSigned ⟨rfl, fun _ _ _ => rfl⟩ (fun _ _ _ _ => exec_rem_of_regular) fun a b _ => toInt_remSigned a b⟩

/-- Settles O7: the quotient and the remainder of the natural numbers, which fit a word. -/
theorem unsignedDivision : Obligations.UnsignedDivision :=
  ⟨divideRule divUnsigned ⟨rfl, fun _ _ _ => rfl⟩ (fun _ _ _ _ nonzero _ => exec_divu_of_nonzero nonzero)
      fun a b _ => toNat_divUnsigned a b,
    divideRule remUnsigned ⟨rfl, fun _ _ _ => rfl⟩ (fun _ _ _ _ nonzero _ => exec_remu_of_nonzero nonzero)
      fun a b _ => toNat_remUnsigned a b⟩

/-- Settles O8: the pair leads both instructions to `divOverflow`, whose answer the parameter chooses. -/
theorem signedDivisionOverflow : Obligations.SignedDivisionOverflow := by
  intro rd rs1 rs2 s pair
  rw [exec_div_of_overflowPair pair, exec_rem_of_overflowPair pair]
  refine ⟨fun riscv => ?_, fun fault => ⟨divOverflow_of_fault rd _ fault, divOverflow_of_fault rd _ fault⟩⟩
  rw [divOverflow_of_riscv rd _ riscv, divOverflow_of_riscv rd _ riscv]
  exact ⟨⟨_, rfl, writesReg_commit ..⟩, ⟨_, rfl, writesReg_commit ..⟩⟩

/-- Settles O9: the four test the divisor before anything else. -/
theorem divisionByZeroResets : Obligations.DivisionByZeroResets := by
  intro rd rs1 rs2 s zero i hi
  refine ⟨_, ?_, errorResets_errorStep s .divisionByZero⟩
  rcases hi with rfl | rfl | rfl | rfl <;> exact if_pos zero

theorem tmod_nonpos {a : Int} (b : Int) (ha : a ≤ 0) : a.tmod b ≤ 0 := by
  have negated : 0 ≤ (-a).tmod b := Int.tmod_nonneg b (by omega)
  rw [Int.neg_tmod] at negated
  omega

/-- The laws of quotient and remainder rounded toward zero (R171). -/
theorem tdiv_tmod_laws (a : Int) {b : Int} (hb : b ≠ 0) :
    a = a.tdiv b * b + a.tmod b ∧ (a.tmod b).natAbs < b.natAbs ∧ (0 < a.tmod b → 0 < a) ∧ (a.tmod b < 0 → a < 0) := by
  refine ⟨(Int.tdiv_mul_add_tmod a b).symm, ?bound, fun positive => ?positive, fun negative => ?negative⟩
  case bound =>
    rw [Int.natAbs_tmod]
    exact Nat.mod_lt _ (Int.natAbs_pos.mpr hb)
  case positive =>
    by_contra nonpos
    exact absurd positive (Int.not_lt.mpr (tmod_nonpos b (Int.not_lt.mp nonpos)))
  case negative =>
    by_contra nonneg
    exact absurd negative (Int.not_lt.mpr (Int.tmod_nonneg b (Int.not_lt.mp nonneg)))

/-- Settles O10: the four complete with the quotients and remainders of the integers, which obey the laws of division. -/
theorem quotientAndRemainderRebuildDividend : Obligations.QuotientAndRemainderRebuildDividend := by
  intro rd rs1 rs2 s nonzero
  constructor
  · intro regular
    refine ⟨_, _, divSigned _ _, remSigned _ _, exec_div_of_regular nonzero regular, writesReg_commit ..,
      exec_rem_of_regular nonzero regular, writesReg_commit .., ?_⟩
    rw [toInt_divSigned regular, toInt_remSigned]
    exact tdiv_tmod_laws _ fun h => nonzero (BitVec.eq_of_toInt_eq h)
  · refine ⟨_, _, divUnsigned _ _, remUnsigned _ _, exec_divu_of_nonzero nonzero, writesReg_commit ..,
      exec_remu_of_nonzero nonzero, writesReg_commit .., ?_⟩
    rw [toNat_divUnsigned, toNat_remUnsigned]
    have positive : 0 < (readReg s rs2).toNat := Nat.pos_of_ne_zero fun h => nonzero (BitVec.eq_of_toNat_eq h)
    exact ⟨(Nat.div_add_mod' _ _).symm, Nat.mod_lt _ positive⟩

/-! ## Register-immediate and upper-immediate instructions -/

/-- Settles O11: the sign-extended immediate is a displacement. -/
theorem addImmediateWraps : Obligations.AddImmediateWraps :=
  immediateRule (fun a imm => a + imm12 imm) ⟨rfl, fun _ _ _ _ _ => rfl⟩ (fun _ _ _ _ => rfl)
    (displaced_add_signExtend (by decide))

/-- Settles O12: the comparisons of O3 with the sign-extended immediate, in either reading. -/
theorem setLessThanImmediate : Obligations.SetLessThanImmediate := by
  refine ⟨immediateRule (fun a imm => condWord (condLtSigned a (imm12 imm))) ⟨rfl, fun _ _ _ _ _ => rfl⟩
      (fun _ _ _ _ => rfl) fun a imm => ?signed,
    immediateRule (fun a imm => condWord (condLtUnsigned a (imm12 imm))) ⟨rfl, fun _ _ _ _ _ => rfl⟩
      (fun _ _ _ _ => rfl) fun a imm => ?unsigned⟩
  case signed => rw [condWord_condLtSigned, toInt_imm12]
  case unsigned => simp only [condWord_condLtUnsigned, ← toNat_imm12, Int.ofNat_lt]

/-- Settles O13: the operations of O4 on the bits of the sign-extended immediate. -/
theorem immediateLogicIsBitwise : Obligations.ImmediateLogicIsBitwise :=
  ⟨immediateRule (fun a imm => a ^^^ imm12 imm) ⟨rfl, fun _ _ _ _ _ => rfl⟩ (fun _ _ _ _ => rfl)
      fun _ _ _ hk => by rw [BitVec.getLsbD_xor, getLsbD_imm12 _ hk],
    immediateRule (fun a imm => a ||| imm12 imm) ⟨rfl, fun _ _ _ _ _ => rfl⟩ (fun _ _ _ _ => rfl)
      fun _ _ _ hk => by rw [BitVec.getLsbD_or, getLsbD_imm12 _ hk],
    immediateRule (fun a imm => a &&& imm12 imm) ⟨rfl, fun _ _ _ _ _ => rfl⟩ (fun _ _ _ _ => rfl)
      fun _ _ _ hk => by rw [BitVec.getLsbD_and, getLsbD_imm12 _ hk]⟩

/-- Settles O14: the shifts of O2 with the amount from the word. -/
theorem immediateShifts : Obligations.ImmediateShifts :=
  ⟨shiftRule shiftLeft ⟨rfl, fun _ _ _ _ => rfl⟩ (fun _ _ _ _ => rfl) toNat_shiftLeft,
    shiftRule shiftRightLogical ⟨rfl, fun _ _ _ _ => rfl⟩ (fun _ _ _ _ => rfl) toNat_shiftRightLogical,
    shiftRule shiftRightArith ⟨rfl, fun _ _ _ _ => rfl⟩ (fun _ _ _ _ => rfl) toInt_shiftRightArith⟩

/-- Settles O15: the immediate shifted into place fits a word, and AUIPC adds it to the instruction's own pc. -/
theorem upperImmediates : Obligations.UpperImmediates :=
  ⟨fun _ => decode_of_luiPattern, fun _ => decode_of_auipcPattern, fun _ imm s =>
    ⟨completesWith_completeReg (toNat_immU imm),
      completesWith_completeReg ((BitVec.toNat_add s.pc (immU imm)).trans (by rw [toNat_immU]))⟩⟩

end Sys2Proof.Machine
end

section
/-! The loads and the stores (R200-R210): the two shared shapes `loadWith` and `storeWith`, the values that the loads extend,
and the bytes that the stores leave. -/

namespace Sys2Proof.Machine
open Sys2Proof.Claims

/-! ## The low bytes of a word, extended (R7) -/

theorem setWidth_setWidth_word {n : Nat} (hn : n ≤ 32) (b : BitVec n) : (b.setWidth 32).setWidth n = b := by
  rw [BitVec.setWidth_setWidth_of_le b hn, BitVec.setWidth_eq]

theorem toNat_zeroExtendLow (w : AccessWidth) (v : Word) : (zeroExtendLow w v).toNat = v.toNat % 2 ^ (8 * w.bytes) := by
  cases w with
  | byte | half =>
    simp only [zeroExtendLow, BitVec.toNat_setWidth, AccessWidth.bytes]
    omega
  | word => exact (Nat.mod_eq_of_lt v.isLt).symm

theorem zeroExtendLow_eq_ofNat (w : AccessWidth) (v : Word) :
    zeroExtendLow w v = BitVec.ofNat 32 (v.toNat % 2 ^ (8 * w.bytes)) := by
  rw [← toNat_zeroExtendLow, BitVec.ofNat_toNat, BitVec.setWidth_eq]

theorem getLsbD_zeroExtendLow (w : AccessWidth) (v : Word) (k : Nat) :
    (zeroExtendLow w v).getLsbD k = (decide (k < 8 * w.bytes) && v.getLsbD k) := by
  rw [BitVec.getLsbD, toNat_zeroExtendLow, Nat.testBit_mod_two_pow]
  rfl

/-- Extending reads the low bytes only, so it does not see what was cut off before. -/
theorem zeroExtendLow_zeroExtendLow (w : AccessWidth) (v : Word) :
    zeroExtendLow w (zeroExtendLow w v) = zeroExtendLow w v := by
  cases w with
  | byte | half => exact congrArg (BitVec.setWidth 32) (setWidth_setWidth_word (by decide) _)
  | word => rfl

theorem signExtendLow_zeroExtendLow (w : AccessWidth) (v : Word) :
    signExtendLow w (zeroExtendLow w v) = signExtendLow w v := by
  cases w with
  | byte | half => exact congrArg (BitVec.signExtend 32) (setWidth_setWidth_word (by decide) _)
  | word => rfl

/-! ## The values of the loads -/

section Values
variable (m : Memory) (a : Nat)

theorem toInt_load_byte : (signExtendLow .byte (Memory.readBytes m a 1)).toInt = (Memory.readByte m a).toInt := by
  rw [Memory.readBytes_one, signExtendLow, setWidth_setWidth_word (by decide), BitVec.toInt_signExtend_of_le (by decide)]

theorem toInt_load_half : (signExtendLow .half (Memory.readBytes m a 2)).toInt =
    (Memory.readByte m (a + 1) ++ Memory.readByte m a).toInt := by
  rw [Memory.readBytes_two, signExtendLow, setWidth_setWidth_word (by decide), BitVec.toInt_signExtend_of_le (by decide)]

theorem toNat_load_byte : (zeroExtendLow .byte (Memory.readBytes m a 1)).toNat = (Memory.readByte m a).toNat := by
  rw [Memory.readBytes_one, zeroExtendLow, setWidth_setWidth_word (by decide), BitVec.toNat_setWidth_of_le (by decide)]

theorem toNat_load_half : (zeroExtendLow .half (Memory.readBytes m a 2)).toNat =
    (Memory.readByte m (a + 1) ++ Memory.readByte m a).toNat := by
  rw [Memory.readBytes_two, zeroExtendLow, setWidth_setWidth_word (by decide), BitVec.toNat_setWidth_of_le (by decide)]

end Values

/-- The bytes just written read back are the low bytes of the written word. -/
theorem readBytes_writeBytes (m : Memory) (a : Nat) (v : Word) (w : AccessWidth) :
    Memory.readBytes (Memory.writeBytes m a v w.bytes) a w.bytes = zeroExtendLow w v := by
  apply BitVec.eq_of_getLsbD_eq
  intro k hk
  rw [Memory.getLsbD_readBytes, getLsbD_zeroExtendLow, decide_eq_true hk, Bool.true_and]
  by_cases within : k < 8 * w.bytes
  · have bit : 8 * (a + k / 8 - a) + k % 8 = k := by omega
    rw [Memory.readByte_writeBytes, if_pos (by omega), BitVec.getLsbD_extractLsb', bit,
      decide_eq_true (show k % 8 < 8 by omega), Bool.true_and]
  · rw [decide_eq_false within, Bool.false_and, Bool.false_and]

/-! ## Loads -/

section Access
variable {s : State} {w : AccessWidth} {rs1 : RegIdx} {imm : BitVec 12}

theorem accessOk_iff_accessFits {ea : Word} {n : Nat} : accessOk s ea n = true ↔ AccessFits s ea n := accessOk_iff s ea n

theorem loadWith_of_accessFits {ext : AccessWidth → Word → Word} {rd : RegIdx}
    (h : AccessFits s (effectiveAddress s rs1 imm) w.bytes) :
    loadWith w ext rd rs1 imm s = completeReg rd (ext w (memRead s (effectiveAddress s rs1 imm) w)) s :=
  if_pos (accessOk_iff_accessFits.mpr h)

theorem loadWith_of_not_accessFits {ext : AccessWidth → Word → Word} {rd : RegIdx}
    (h : ¬ AccessFits s (effectiveAddress s rs1 imm) w.bytes) :
    loadWith w ext rd rs1 imm s = raise .invalidMemoryAccess s :=
  if_neg (mt accessOk_iff_accessFits.mp h)

/-- What a store that fits does: the memory write, and on to the next word. -/
def storeEffect (s : State) (w : AccessWidth) (rs1 rs2 : RegIdx) (imm : BitVec 12) : Effect :=
  { regWrite := none, memWrite := some ⟨effectiveAddress s rs1 imm, w, readReg s rs2⟩, nextPc := seqPc s }

/-- The state after a store that fits. -/
def afterStore (s : State) (w : AccessWidth) (rs1 rs2 : RegIdx) (imm : BitVec 12) : State :=
  commit (storeEffect s w rs1 rs2 imm) s

theorem storeWith_of_accessFits {rs2 : RegIdx} (h : AccessFits s (effectiveAddress s rs1 imm) w.bytes) :
    storeWith w rs1 rs2 imm s = .next (afterStore s w rs1 rs2 imm) :=
  if_pos (accessOk_iff_accessFits.mpr h)

theorem storeWith_of_not_accessFits {rs2 : RegIdx} (h : ¬ AccessFits s (effectiveAddress s rs1 imm) w.bytes) :
    storeWith w rs1 rs2 imm s = raise .invalidMemoryAccess s :=
  if_neg (mt accessOk_iff_accessFits.mp h)

end Access

/-- What the decoder makes of a LOAD pattern, whatever the register fields and the displacement are. -/
structure LoadPattern (mk : RegIdx → RegIdx → BitVec 12 → Instr) (pattern : Word) : Prop where
  opcode : opcodeField pattern = opcodeLoad
  decodes : ∀ rd rs1 imm, decodeLoad (funct3Field pattern) rd rs1 imm = .instr (mk rd rs1 imm)

theorem loadRule {mk : RegIdx → RegIdx → BitVec 12 → Instr} {pattern : Word} {value : (Nat → Byte) → Word → Prop}
    (w : AccessWidth) (ext : AccessWidth → Word → Word) (hd : LoadPattern mk pattern)
    (he : ∀ rd rs1 imm s, exec (mk rd rs1 imm) s = loadWith w ext rd rs1 imm s)
    (hv : ∀ m a, value (fun k => Memory.readByte m (a + k)) (ext w (Memory.readBytes m a w.bytes))) :
    LoadRule mk pattern w.bytes value := by
  refine ⟨fun _ hw => (decode_of_loadPattern hw hd.opcode).trans (hd.decodes _ _ _), fun rd rs1 imm s => ?_⟩
  rw [he]
  refine ⟨fun fits => ?_, fun fails => ?_⟩
  · rw [loadWith_of_accessFits fits]
    exact completesWith_completeReg (hv s.mem _)
  · rw [loadWith_of_not_accessFits fails]
    exact ⟨_, rfl, errorResets_errorStep s _⟩

/-- Settles O17: the bytes read, put together by the width, and extended by the instruction. -/
theorem loadsReadLittleEndian : Obligations.LoadsReadLittleEndian :=
  ⟨loadRule .byte signExtendLow ⟨rfl, fun _ _ _ => rfl⟩ (fun _ _ _ _ => rfl) toInt_load_byte,
    loadRule .half signExtendLow ⟨rfl, fun _ _ _ => rfl⟩ (fun _ _ _ _ => rfl) toInt_load_half,
    loadRule .word zeroExtendLow ⟨rfl, fun _ _ _ => rfl⟩ (fun _ _ _ _ => rfl) Memory.readBytes_four,
    loadRule .byte zeroExtendLow ⟨rfl, fun _ _ _ => rfl⟩ (fun _ _ _ _ => rfl) toNat_load_byte,
    loadRule .half zeroExtendLow ⟨rfl, fun _ _ _ => rfl⟩ (fun _ _ _ _ => rfl) toNat_load_half⟩

/-! ## Stores -/

theorem storesBytes_afterStore (s : State) (w : AccessWidth) (rs1 rs2 : RegIdx) (imm : BitVec 12) :
    StoresBytes s (afterStore s w rs1 rs2 imm) (effectiveAddress s rs1 imm) w.bytes (readReg s rs2) where
  stored k hk := by
    rw [afterStore, readByte_commit]
    refine (if_pos ⟨Nat.le_add_right _ _, Nat.add_lt_add_left hk _⟩).trans ?_
    rw [Nat.add_sub_cancel_left]
  others b hb := by
    rw [afterStore, readByte_commit]
    exact if_neg fun ⟨low, high⟩ => hb.elim (Nat.not_lt.mpr low) (Nat.not_lt.mpr · high)
  registers := readReg_commit _ s
  pc := rfl
  machine := keepsMachine_commit _ s
  outcome := by
    rw [afterStore, commit_lastOutcome, ← zeroExtendLow_eq_ofNat]
    rfl

/-- What the decoder makes of a STORE pattern, whatever the register fields and the displacement are. -/
structure StorePattern (mk : RegIdx → RegIdx → BitVec 12 → Instr) (pattern : Word) : Prop where
  opcode : opcodeField pattern = opcodeStore
  decodes : ∀ rs1 rs2 imm, decodeStore (funct3Field pattern) rs1 rs2 imm = .instr (mk rs1 rs2 imm)

theorem storeRule {mk : RegIdx → RegIdx → BitVec 12 → Instr} {pattern : Word} (w : AccessWidth)
    (hd : StorePattern mk pattern) (he : ∀ rs1 rs2 imm s, exec (mk rs1 rs2 imm) s = storeWith w rs1 rs2 imm s) :
    StoreRule mk pattern w.bytes := by
  refine ⟨fun _ hw => (decode_of_storePattern hw hd.opcode).trans (hd.decodes _ _ _), fun rs1 rs2 imm s => ?_⟩
  rw [he]
  exact ⟨fun fits => ⟨_, storeWith_of_accessFits fits, storesBytes_afterStore s w rs1 rs2 imm⟩,
    fun fails => ⟨_, storeWith_of_not_accessFits fails, errorResets_errorStep s _⟩⟩

/-- Settles O18: the three widths of one store. -/
theorem storesWriteTheirBytesOnly : Obligations.StoresWriteTheirBytesOnly :=
  ⟨storeRule .byte ⟨rfl, fun _ _ _ => rfl⟩ (fun _ _ _ _ => rfl),
    storeRule .half ⟨rfl, fun _ _ _ => rfl⟩ (fun _ _ _ _ => rfl),
    storeRule .word ⟨rfl, fun _ _ _ => rfl⟩ (fun _ _ _ _ => rfl)⟩

/-! ## A load after a store -/

section AfterStore
variable (s : State) (w : AccessWidth) (rs1 rs2 : RegIdx) (imm : BitVec 12)

theorem effectiveAddress_afterStore :
    effectiveAddress (afterStore s w rs1 rs2 imm) rs1 imm = effectiveAddress s rs1 imm :=
  congrArg (· + imm12 imm) ((storesBytes_afterStore s w rs1 rs2 imm).registers rs1)

theorem accessFits_afterStore {ea : Word} {n : Nat} (fits : AccessFits s ea n) :
    AccessFits (afterStore s w rs1 rs2 imm) ea n := by
  obtain ⟨memWords, _, params⟩ := (storesBytes_afterStore s w rs1 rs2 imm).machine
  rw [AccessFits, memWords, params]
  exact fits

theorem memRead_afterStore :
    memRead (afterStore s w rs1 rs2 imm) (effectiveAddress s rs1 imm) w = zeroExtendLow w (readReg s rs2) :=
  readBytes_writeBytes s.mem _ _ w

end AfterStore

/-- The store keeps the registers, the size and the parameters, so the load has the same address and passes the same check, and
it reads the bytes just written. -/
theorem storeThenLoad {store load : RegIdx → RegIdx → BitVec 12 → Instr} {value : Word → Word → Prop} (w : AccessWidth)
    (ext : AccessWidth → Word → Word) (hs : ∀ rs1 rs2 imm s, exec (store rs1 rs2 imm) s = storeWith w rs1 rs2 imm s)
    (hl : ∀ rd rs1 imm s, exec (load rd rs1 imm) s = loadWith w ext rd rs1 imm s)
    (hv : ∀ x, value x (ext w (zeroExtendLow w x))) : StoreThenLoad store load w.bytes value := by
  intro rd rs1 rs2 imm s fits
  have address := effectiveAddress_afterStore s w rs1 rs2 imm
  have fits_after := accessFits_afterStore s w rs1 rs2 imm fits
  refine ⟨_, _, ext w (zeroExtendLow w (readReg s rs2)), (hs ..).trans (storeWith_of_accessFits fits),
    (hl ..).trans (loadWith_of_accessFits (address.symm ▸ fits_after)), ?_, hv _⟩
  rw [address, memRead_afterStore]
  exact writesReg_commit _ rd _ _

/-- Settles O19: the loads extend the stored low bytes. -/
theorem loadReturnsWhatWasStored : Obligations.LoadReturnsWhatWasStored := by
  refine ⟨storeThenLoad .byte zeroExtendLow (fun _ _ _ _ => rfl) (fun _ _ _ _ => rfl) fun x => ?_,
    storeThenLoad .byte signExtendLow (fun _ _ _ _ => rfl) (fun _ _ _ _ => rfl) fun x => ?_,
    storeThenLoad .half zeroExtendLow (fun _ _ _ _ => rfl) (fun _ _ _ _ => rfl) fun x => ?_,
    storeThenLoad .half signExtendLow (fun _ _ _ _ => rfl) (fun _ _ _ _ => rfl) fun x => ?_,
    storeThenLoad .word zeroExtendLow (fun _ _ _ _ => rfl) (fun _ _ _ _ => rfl) fun _ => rfl⟩
  · rw [zeroExtendLow_zeroExtendLow]
    exact toNat_zeroExtendLow .byte x
  · rw [signExtendLow_zeroExtendLow, signExtendLow, BitVec.setWidth_eq_extractLsb' (by decide)]
  · rw [zeroExtendLow_zeroExtendLow]
    exact toNat_zeroExtendLow .half x
  · rw [signExtendLow_zeroExtendLow, signExtendLow, BitVec.setWidth_eq_extractLsb' (by decide)]

end Sys2Proof.Machine
end

section
/-! The branches and the jumps (R220-R229): where they go, and the error reset where the displacement or the target is no
multiple of 4. -/

namespace Sys2Proof.Machine
open Sys2Proof.Claims

/-! ## Branches -/

theorem condEq_iff (a b : Word) : condEq a b = true ↔ a = b := decide_eq_true_iff

theorem not_condEq_iff (a b : Word) : (!condEq a b) = true ↔ a ≠ b := by
  rw [Bool.not_eq_true', ← Bool.not_eq_true, condEq_iff]

theorem condLtSigned_iff (a b : Word) : condLtSigned a b = true ↔ a.toInt < b.toInt := decide_eq_true_iff

theorem not_condLtSigned_iff (a b : Word) : (!condLtSigned a b) = true ↔ b.toInt ≤ a.toInt := by
  rw [Bool.not_eq_true', ← Bool.not_eq_true, condLtSigned_iff, Int.not_lt]

theorem condLtUnsigned_iff (a b : Word) : condLtUnsigned a b = true ↔ a.toNat < b.toNat := decide_eq_true_iff

theorem not_condLtUnsigned_iff (a b : Word) : (!condLtUnsigned a b) = true ↔ b.toNat ≤ a.toNat := by
  rw [Bool.not_eq_true', ← Bool.not_eq_true, condLtUnsigned_iff, Nat.not_lt]

/-- A commit with no write changes the pc only. -/
theorem writesPcOnly_commit (s : State) (pc' : Word) :
    WritesPcOnly s (commit { regWrite := none, memWrite := none, nextPc := pc' } s) pc' where
  registers := readReg_commit _ s
  pc := rfl
  memory := readByte_commit _ s
  machine := keepsMachine_commit _ s

section Branch
variable {c : Bool} {imm : BitVec 13} {s : State}

theorem branchWith_taken (aligned : imm.toInt % 4 = 0) (taken : c = true) :
    branchWith c imm s = complete { regWrite := none, memWrite := none, nextPc := branchTarget s imm } s := by
  subst taken
  exact if_pos ((aligned4_signExtend (by decide) imm).mpr aligned)

theorem branchWith_not_taken (aligned : imm.toInt % 4 = 0) (not_taken : c = false) :
    branchWith c imm s = complete { regWrite := none, memWrite := none, nextPc := seqPc s } s := by
  subst not_taken
  exact if_pos ((aligned4_signExtend (by decide) imm).mpr aligned)

/-- The displacement is tested whether or not the branch is taken (R220). -/
theorem branchWith_misaligned (misaligned : imm.toInt % 4 ≠ 0) : branchWith c imm s = raise .offsetNot32BitAligned s :=
  if_neg (mt (aligned4_signExtend (by decide) imm).mp misaligned)

end Branch

/-- What the decoder makes of a BRANCH pattern, whatever the register fields and the displacement are. -/
structure BranchPattern (mk : RegIdx → RegIdx → BitVec 13 → Instr) (pattern : Word) : Prop where
  opcode : opcodeField pattern = opcodeBranch
  decodes : ∀ rs1 rs2 imm, decodeBranch (funct3Field pattern) rs1 rs2 imm = .instr (mk rs1 rs2 imm)

theorem branchRule {mk : RegIdx → RegIdx → BitVec 13 → Instr} {pattern : Word} {taken : Word → Word → Prop}
    (cond : Word → Word → Bool) (hd : BranchPattern mk pattern)
    (he : ∀ rs1 rs2 imm s, exec (mk rs1 rs2 imm) s = branchWith (cond (readReg s rs1) (readReg s rs2)) imm s)
    (hc : ∀ a b, cond a b = true ↔ taken a b) : BranchRule mk pattern taken := by
  refine ⟨fun _ hw => (decode_of_branchPattern hw hd.opcode).trans (hd.decodes _ _ _), fun rs1 rs2 imm s => ?_⟩
  rw [he]
  refine ⟨fun aligned goes => ?_, fun aligned stays => ?_, fun misaligned => ?_⟩
  · exact ⟨_, branchTarget s imm, branchWith_taken aligned ((hc _ _).mpr goes), writesPcOnly_commit ..,
      displaced_add_signExtend (by decide) s.pc imm⟩
  · exact ⟨_, branchWith_not_taken aligned (Bool.eq_false_iff.mpr (mt (hc _ _).mp stays)), writesPcOnly_commit ..⟩
  · exact ⟨_, branchWith_misaligned misaligned, errorResets_errorStep s _⟩

/-- Settles O20: one branch with six conditions. -/
theorem branchesGoWhereTheirConditionSays : Obligations.BranchesGoWhereTheirConditionSays :=
  ⟨branchRule condEq ⟨rfl, fun _ _ _ => rfl⟩ (fun _ _ _ _ => rfl) condEq_iff,
    branchRule (fun a b => !condEq a b) ⟨rfl, fun _ _ _ => rfl⟩ (fun _ _ _ _ => rfl) not_condEq_iff,
    branchRule condLtSigned ⟨rfl, fun _ _ _ => rfl⟩ (fun _ _ _ _ => rfl) condLtSigned_iff,
    branchRule (fun a b => !condLtSigned a b) ⟨rfl, fun _ _ _ => rfl⟩ (fun _ _ _ _ => rfl) not_condLtSigned_iff,
    branchRule condLtUnsigned ⟨rfl, fun _ _ _ => rfl⟩ (fun _ _ _ _ => rfl) condLtUnsigned_iff,
    branchRule (fun a b => !condLtUnsigned a b) ⟨rfl, fun _ _ _ => rfl⟩ (fun _ _ _ _ => rfl) not_condLtUnsigned_iff⟩

/-! ## Jumps -/

theorem aligned4_iff (v : Word) : aligned4 v = true ↔ v.toNat % 4 = 0 := beq_iff_eq

/-- Settles O22: the target is the one word that the displacement leads to, computed before rd is written. -/
theorem jumpAndLinkRegister : Obligations.JumpAndLinkRegister := by
  refine ⟨fun _ => decode_of_jalrPattern, fun rd rs1 imm s target displaced => ?_⟩
  obtain rfl : target = jalrTarget s rs1 imm := displaced_unique displaced (displaced_add_signExtend (by decide) _ imm)
  refine ⟨fun aligned => ?_, fun misaligned => ?_⟩
  · exact ⟨_, if_pos ((aligned4_iff _).mpr aligned), writesReg_commit ..⟩
  · exact ⟨_, if_neg (mt (aligned4_iff _).mp misaligned), errorResets_errorStep s _⟩

end Sys2Proof.Machine

namespace Sys2Proof
open Sys2Proof.Machine Sys2Proof.Claims

/-- Settles O21. It stands outside `Machine`, where `jumpAndLink` names the operation of the model. -/
theorem jumpAndLink : Obligations.JumpAndLink := by
  refine ⟨fun _ => decode_of_jalPattern, fun rd imm s => ⟨fun aligned => ?_, fun misaligned => ?_⟩⟩
  · exact ⟨_, jalTarget s imm, if_pos ((aligned4_signExtend (by decide) imm).mpr aligned), writesReg_commit ..,
      displaced_add_signExtend (by decide) s.pc imm⟩
  · exact ⟨_, if_neg (mt (aligned4_signExtend (by decide) imm).mp misaligned), errorResets_errorStep s _⟩

end Sys2Proof
end

section
/-! The assembler's words (R106, R107): every instruction a line assembles to is well formed, so its encoding decodes, and
each code line gives one word. -/

namespace Sys2Proof.Machine

/-! ## Displacements -/

/-- Dropping bit 0 of a displacement makes it even (R104). -/
theorem evenDisplacement_evenBits {n : Nat} (hn : 0 < n) (v : Int) : evenDisplacement (evenBits n v) = true := by
  have even : (v - v % 2) % 2 ^ n % 2 = 0 := by
    rw [Int.emod_emod_of_dvd _ (dvd_pow_self 2 (by omega))]
    omega
  have even_toNat : (evenBits n v).toNat % 2 = 0 := by
    rw [evenBits, BitVec.toNat_ofInt]
    push_cast
    omega
  rw [evenDisplacement, BitVec.getLsbD, Nat.testBit_zero, even_toNat]
  rfl

theorem evenDisplacement_of_operand13 {t : Text} {d : BitVec 13} (h : operand13 t = .ok d) : evenDisplacement d = true := by
  unfold operand13 at h
  cases hp : parseImmediate (-4096) 4095 t with
  | error e => rw [hp] at h; cases h
  | ok v => rw [hp] at h; cases h; exact evenDisplacement_evenBits (by decide) v

theorem evenDisplacement_of_operand21 {t : Text} {d : BitVec 21} (h : operand21 t = .ok d) : evenDisplacement d = true := by
  unfold operand21 at h
  cases hp : parseImmediate (-1048576) 1048575 t with
  | error e => rw [hp] at h; cases h
  | ok v => rw [hp] at h; cases h; exact evenDisplacement_evenBits (by decide) v

/-! ## Shapes -/

/-- The shape builds well-formed instructions only, from even displacements where it takes one. -/
def Shape.Sound : Shape → Prop
  | .register mk => ∀ a b c, (mk a b c).wellFormed = true
  | .immediate mk => ∀ a b c, (mk a b c).wellFormed = true
  | .shift mk => ∀ a b c, (mk a b c).wellFormed = true
  | .based mk => ∀ a b c, (mk a b c).wellFormed = true
  | .branch mk => ∀ a b d, evenDisplacement d = true → (mk a b d).wellFormed = true
  | .jump mk => ∀ a d, evenDisplacement d = true → (mk a d).wellFormed = true
  | .upper mk => ∀ a b, (mk a b).wellFormed = true

theorem sound_of_mem_shapes {e : String × Shape} (h : e ∈ shapes) : e.2.Sound := by
  simp only [shapes, List.mem_append] at h
  obtain ((h | h) | h) | h := h
  · fin_cases h <;> exact fun _ _ _ => rfl
  · fin_cases h
    iterate 9 exact fun _ _ _ => rfl
    iterate 2 exact fun _ _ => rfl
  · fin_cases h <;> exact fun _ _ _ => rfl
  · fin_cases h
    iterate 6 exact fun _ _ _ even => even
    exact fun _ _ even => even

theorem sound_of_shapeOf {mnemonic : Text} {shape : Shape} (h : shapeOf mnemonic = some shape) : shape.Sound := by
  obtain ⟨e, found, rfl⟩ := Option.map_eq_some_iff.mp h
  exact sound_of_mem_shapes (List.mem_of_find?_eq_some found)

/-- What a `do` block of the assembler that succeeds went through. -/
theorem bind_eq_ok {α β : Type} {x : Except LineStop α} {f : α → Except LineStop β} {r : β} (h : (x >>= f) = .ok r) :
    ∃ a, x = .ok a ∧ f a = .ok r := by
  cases x with
  | error e => cases h
  | ok a => exact ⟨a, rfl, h⟩

theorem wellFormed_of_buildInstr {shape : Shape} (sound : shape.Sound) {whole : Text} {operands : List Text} {i : Instr}
    (h : buildInstr shape whole operands = .ok i) : i.wellFormed = true := by
  unfold buildInstr at h
  split at h
  case h_1 | h_2 | h_3 | h_4 =>
    obtain ⟨a, _, h⟩ := bind_eq_ok h
    obtain ⟨b, _, h⟩ := bind_eq_ok h
    obtain ⟨c, _, h⟩ := bind_eq_ok h
    cases h
    exact sound ..
  case h_5 =>
    obtain ⟨a, _, h⟩ := bind_eq_ok h
    obtain ⟨b, _, h⟩ := bind_eq_ok h
    obtain ⟨d, hd, h⟩ := bind_eq_ok h
    cases h
    exact sound a b d (evenDisplacement_of_operand13 hd)
  case h_6 =>
    obtain ⟨a, _, h⟩ := bind_eq_ok h
    obtain ⟨d, hd, h⟩ := bind_eq_ok h
    cases h
    exact sound a d (evenDisplacement_of_operand21 hd)
  case h_7 =>
    obtain ⟨a, _, h⟩ := bind_eq_ok h
    obtain ⟨b, _, h⟩ := bind_eq_ok h
    cases h
    exact sound a b
  case h_8 => cases h

/-! ## Lines and programs -/

theorem wellFormed_of_assembleLine {labels : List (Text × Nat)} {address : Nat} {line : Text} {i : Instr}
    (h : assembleLine labels address line = .ok i) : i.wellFormed = true := by
  unfold assembleLine at h
  dsimp only at h
  split at h
  · rename_i shape found
    exact wellFormed_of_buildInstr (sound_of_shapeOf found) h
  · cases h

/-- The second pass gives one word for each code line, and each word is the encoding of a well-formed instruction. -/
theorem assembleFrom_ok {labels : List (Text × Nat)} {k : Nat} {code : List CodeLine} {words : List Word}
    (h : assembleFrom labels k code = .ok words) :
    words.length = code.length ∧ ∀ w ∈ words, ∃ i : Instr, encode i = w ∧ i.wellFormed = true := by
  induction code generalizing k words with
  | nil =>
    cases h
    exact ⟨rfl, nofun⟩
  | cons l rest ih =>
    unfold assembleFrom at h
    split at h
    · cases h
    · rename_i i assembled
      split at h
      · cases h
      · rename_i others hothers
        cases h
        obtain ⟨length_eq, encoded⟩ := ih hothers
        refine ⟨congrArg Nat.succ length_eq, List.forall_mem_cons.mpr ⟨⟨i, rfl, ?_⟩, encoded⟩⟩
        exact wellFormed_of_assembleLine assembled

/-- A successful outcome comes from a second pass that succeeded on the first pass's code lines. -/
theorem assemble_success {lines : List Text} {o : ParseOutcome} (h : assemble lines = .outcome o) (success : o.success = true) :
    ∃ labels code, assembleFrom labels 0 code = .ok o.words ∧ o.lineMap = code.map (·.number) := by
  unfold assemble at h
  split at h
  · cases h
    cases success
  · rename_i scan _
    split at h
    · cases h
      cases success
    · split at h
      · cases h
        cases success
      · cases h
      · rename_i words assembled
        cases h
        exact ⟨scan.labels, scan.code, assembled, rfl⟩

/-- Settles O56: the words are encodings of well-formed instructions, which decode to them, one for each code line. -/
theorem assembledWordsDecode : Obligations.AssembledWordsDecode := by
  intro lines o h success
  obtain ⟨labels, code, assembled, lineMap⟩ := assemble_success h success
  obtain ⟨length_eq, encoded⟩ := assembleFrom_ok assembled
  refine ⟨by rw [lineMap, List.length_map, length_eq], fun w hw => ?_⟩
  obtain ⟨i, rfl, wf⟩ := encoded w hw
  exact ⟨i, decodeEncodeAgree i wf⟩

end Sys2Proof.Machine
end
